-- ==== Sys2Proof/Word.lean ====
section
/-! DEFINITION. The word types of the machine: the 16-bit word of registers, addresses, memory and
instructions (00_scope.md R3), and the byte that the console moves (20_memory.md R35).
The sum `add16(a, b)` of the spec's notation (00_scope.md section 5) is `a + b` on `Word`: it is taken
modulo 65536. -/

namespace Sys2Proof

/-- One byte, bits 7 to 0: a console character, a trap vector. -/
abbrev Byte := BitVec 8

/-- One 16-bit unsigned word, bit 15 the most significant (00_scope.md R3 and section 5). -/
abbrev Word := BitVec 16

end Sys2Proof
end

