-- ==== Sys2Proof/Syntax.lean ====
section
/-! DEFINITION. The instructions, one constructor for each of the 26 rows of spec/opcode_table.json: the
nineteen variants of the decoder (30_encoding.md R62) and the seven rows that are second names of words
of JMP and TRAP (R64: RET, GETC, OUT, PUTS, IN, PUTSP, HALT). An operand field is held at its own width,
so no field can be out of range. -/

namespace Sys2Proof

/-- The index of a general register, 0 to 7 (10_state.md R10). -/
abbrev Reg := Fin 8

/-- The link register, general register 7 (R12). -/
abbrev Reg.link : Reg := 7

/-- The six services of the trap controller's fixed vector table (60_exceptions.md R153). -/
inductive Service where
  | getc | out | puts | inp | putsp | halt
  deriving DecidableEq, Repr

/-- The instructions of the machine. -/
inductive Instr where
  /-- BR (R50, R80): the mask bits for NEGATIVE, ZERO, POSITIVE and the offset. -/
  | br (n z p : Bool) (pcOffset9 : BitVec 9)
  /-- ADD, register form (R47, R70). -/
  | addReg (dr sr1 sr2 : Reg)
  /-- ADD, immediate form (R48, R71). -/
  | addImm (dr sr1 : Reg) (imm5 : BitVec 5)
  /-- LD (R53, R90). -/
  | ld (dr : Reg) (pcOffset9 : BitVec 9)
  /-- ST (R53, R100). -/
  | st (sr : Reg) (pcOffset9 : BitVec 9)
  /-- JSR (R52, R83). -/
  | jsr (pcOffset11 : BitVec 11)
  /-- JSRR (R52, R84). -/
  | jsrr (baseR : Reg)
  /-- AND, register form (R47, R72). -/
  | andReg (dr sr1 sr2 : Reg)
  /-- AND, immediate form (R48, R73). -/
  | andImm (dr sr1 : Reg) (imm5 : BitVec 5)
  /-- LDR (R54, R92). -/
  | ldr (dr baseR : Reg) (offset6 : BitVec 6)
  /-- STR (R54, R102). -/
  | str (sr baseR : Reg) (offset6 : BitVec 6)
  /-- RTI (R55, R111). -/
  | rti
  /-- NOT (R49, R74). -/
  | not (dr sr : Reg)
  /-- LDI (R53, R91). -/
  | ldi (dr : Reg) (pcOffset9 : BitVec 9)
  /-- STI (R53, R101). -/
  | sti (sr : Reg) (pcOffset9 : BitVec 9)
  /-- JMP (R51, R81). -/
  | jmp (baseR : Reg)
  /-- RET, the name of JMP with BaseR = 7 (R82). -/
  | ret
  /-- RES, the reserved opcode 1101 (R55, R112). -/
  | res
  /-- LEA (R53, R93). -/
  | lea (dr : Reg) (pcOffset9 : BitVec 9)
  /-- TRAP (R55, R110). -/
  | trap (trapvect8 : Byte)
  /-- GETC, the name of TRAP x20 (R64, R155). -/
  | getc
  /-- OUT, the name of TRAP x21 (R64, R156). -/
  | out
  /-- PUTS, the name of TRAP x22 (R64, R157). -/
  | puts
  /-- IN, the name of TRAP x23 (R64, R158). -/
  | inp
  /-- PUTSP, the name of TRAP x24 (R64, R159). -/
  | putsp
  /-- HALT, the name of TRAP x25 (R64, R160). -/
  | halt
  deriving DecidableEq, Repr

end Sys2Proof
end

