-- ==== Sys2Proof/WellFormed.lean ====
section
/-! DEFINITION. Well-formed instructions: the ones the decoder can answer. Every operand field already has
its own width (Syntax.lean), so the one thing left to check is that a word which has a name of its own in
spec/opcode_table.json (30_encoding.md R64) is written by that name: JMP through register 7 is RET, and
TRAP with a vector of the service table is GETC, OUT, PUTS, IN, PUTSP or HALT. Every constructor has its
meaning for every operand all the same, the second spellings included (log entry 22). -/

namespace Sys2Proof

/-- The instruction is spelled as the decoder spells its word. -/
def Instr.wf : Instr → Bool
  | .jmp baseR => baseR != Reg.link
  | .trap trapvect8 => trapvect8.toNat < 0x20 || 0x25 < trapvect8.toNat
  | .br _ _ _ _ | .addReg _ _ _ | .addImm _ _ _ | .ld _ _ | .st _ _ | .jsr _ | .jsrr _
  | .andReg _ _ _ | .andImm _ _ _ | .ldr _ _ _ | .str _ _ _ | .rti | .not _ _ | .ldi _ _ | .sti _ _
  | .ret | .res | .lea _ _ | .getc | .out | .puts | .inp | .putsp | .halt => true

end Sys2Proof
end

