-- ==== Sys2Proof/Decode.lean ====
section
/-! DEFINITION. The decoder (30_encoding.md R62), total on all 65536 words (R60), and the encoder written
from the same encoding tables (R47 to R56). `decodeCore` is the case list of R62 with its nineteen
variants; `decode` then writes a word that has a name of its own (R64) by that name. -/

namespace Sys2Proof

/-- The sixteen opcodes of R56. -/
inductive Opcode where
  | br | add | ld | st | jsr | and | ldr | str | rti | not | ldi | sti | jmp | res | lea | trap
  deriving DecidableEq, Repr

/-- The opcode map of R56, number to opcode. The numbers of BR, ST, JSR, AND, LDR, STR, NOT, LDI, STI and
JMP are the spec's decision D8: UNVERIFIED, unsafe, log entry 7. -/
def Opcode.ofBits (b : BitVec 4) : Opcode :=
  match b.getLsbD 3, b.getLsbD 2, b.getLsbD 1, b.getLsbD 0 with
  | false, false, false, false => .br
  | false, false, false, true => .add
  | false, false, true, false => .ld
  | false, false, true, true => .st
  | false, true, false, false => .jsr
  | false, true, false, true => .and
  | false, true, true, false => .ldr
  | false, true, true, true => .str
  | true, false, false, false => .rti
  | true, false, false, true => .not
  | true, false, true, false => .ldi
  | true, false, true, true => .sti
  | true, true, false, false => .jmp
  | true, true, false, true => .res
  | true, true, true, false => .lea
  | true, true, true, true => .trap

/-- The opcode map of R56, opcode to number. -/
def Opcode.bits : Opcode → BitVec 4
  | .br => 0b0000#4
  | .add => 0b0001#4
  | .ld => 0b0010#4
  | .st => 0b0011#4
  | .jsr => 0b0100#4
  | .and => 0b0101#4
  | .ldr => 0b0110#4
  | .str => 0b0111#4
  | .rti => 0b1000#4
  | .not => 0b1001#4
  | .ldi => 0b1010#4
  | .sti => 0b1011#4
  | .jmp => 0b1100#4
  | .res => 0b1101#4
  | .lea => 0b1110#4
  | .trap => 0b1111#4

/-! The fields of the instruction word (R46, R123). -/

/-- `ir[15:12]`. -/
def opcodeField (ir : Word) : BitVec 4 := ir.extractLsb' 12 4
/-- The register field `ir[11:9]`: DR, or SR of a store. -/
def reg11to9 (ir : Word) : Reg := (ir.extractLsb' 9 3).toFin
/-- The register field `ir[8:6]`: SR1, BaseR, or SR of NOT. -/
def reg8to6 (ir : Word) : Reg := (ir.extractLsb' 6 3).toFin
/-- The register field `ir[2:0]`: SR2. -/
def reg2to0 (ir : Word) : Reg := (ir.extractLsb' 0 3).toFin
/-- `ir[4:0]`. -/
def imm5Field (ir : Word) : BitVec 5 := ir.extractLsb' 0 5
/-- `ir[5:0]`. -/
def offset6Field (ir : Word) : BitVec 6 := ir.extractLsb' 0 6
/-- `ir[8:0]`. -/
def pcOffset9Field (ir : Word) : BitVec 9 := ir.extractLsb' 0 9
/-- `ir[10:0]`. -/
def pcOffset11Field (ir : Word) : BitVec 11 := ir.extractLsb' 0 11
/-- `ir[7:0]`, the trap vector, never sign-extended (R5). -/
def trapvect8Field (ir : Word) : Byte := ir.extractLsb' 0 8

/-- The decoding procedure of R62: a pure function of the instruction word, the opcode first, then
`ir[5]` for ADD and AND and `ir[11]` for JSR and JSRR. The bits R47 to R55 mark unused are not looked at
(R58). The field positions that D9 supplies are UNVERIFIED, unsafe: log entry 8. -/
def decodeCore (ir : Word) : Instr :=
  match Opcode.ofBits (opcodeField ir) with
  | .br => .br (ir.getLsbD 11) (ir.getLsbD 10) (ir.getLsbD 9) (pcOffset9Field ir)
  | .add =>
    if ir.getLsbD 5 then .addImm (reg11to9 ir) (reg8to6 ir) (imm5Field ir)
    else .addReg (reg11to9 ir) (reg8to6 ir) (reg2to0 ir)
  | .ld => .ld (reg11to9 ir) (pcOffset9Field ir)
  | .st => .st (reg11to9 ir) (pcOffset9Field ir)
  | .jsr => if ir.getLsbD 11 then .jsr (pcOffset11Field ir) else .jsrr (reg8to6 ir)
  | .and =>
    if ir.getLsbD 5 then .andImm (reg11to9 ir) (reg8to6 ir) (imm5Field ir)
    else .andReg (reg11to9 ir) (reg8to6 ir) (reg2to0 ir)
  | .ldr => .ldr (reg11to9 ir) (reg8to6 ir) (offset6Field ir)
  | .str => .str (reg11to9 ir) (reg8to6 ir) (offset6Field ir)
  | .rti => .rti
  | .not => .not (reg11to9 ir) (reg8to6 ir)
  | .ldi => .ldi (reg11to9 ir) (pcOffset9Field ir)
  | .sti => .sti (reg11to9 ir) (pcOffset9Field ir)
  | .jmp => .jmp (reg8to6 ir)
  | .res => .res
  | .lea => .lea (reg11to9 ir) (pcOffset9Field ir)
  | .trap => .trap (trapvect8Field ir)

/-- The fixed vector table of R153, vector to service. `none` is any other vector (R161). -/
def Service.ofVector (v : Byte) : Option Service :=
  if v = 0x20#8 then some .getc
  else if v = 0x21#8 then some .out
  else if v = 0x22#8 then some .puts
  else if v = 0x23#8 then some .inp
  else if v = 0x24#8 then some .putsp
  else if v = 0x25#8 then some .halt
  else none

/-- The fixed vector table of R153, service to vector. -/
def Service.vector : Service → Byte
  | .getc => 0x20#8
  | .out => 0x21#8
  | .puts => 0x22#8
  | .inp => 0x23#8
  | .putsp => 0x24#8
  | .halt => 0x25#8

/-- The name a service's TRAP word has in R64. -/
def Service.instr : Service → Instr
  | .getc => .getc
  | .out => .out
  | .puts => .puts
  | .inp => .inp
  | .putsp => .putsp
  | .halt => .halt

/-- The expansion of R64: the decoder variant of R62 that an instruction is another name of. -/
def Instr.core : Instr → Instr
  | .ret => .jmp Reg.link
  | .getc => .trap Service.getc.vector
  | .out => .trap Service.out.vector
  | .puts => .trap Service.puts.vector
  | .inp => .trap Service.inp.vector
  | .putsp => .trap Service.putsp.vector
  | .halt => .trap Service.halt.vector
  | i => i

/-- The name of R64 for an instruction that has one. -/
def Instr.named : Instr → Instr
  | .jmp baseR => if baseR = Reg.link then .ret else .jmp baseR
  | .trap v =>
    match Service.ofVector v with
    | some svc => svc.instr
    | none => .trap v
  | i => i

/-- The decoder: R62's variant, written by its own name where R64 gives it one. -/
def decode (ir : Word) : Instr := (decodeCore ir).named

/-! ### The encoder -/

/-- The three bits of a register field (R57). -/
def regBits (r : Reg) : BitVec 3 := BitVec.ofFin r

/-- One bit of BR's mask. -/
def flagBit (b : Bool) : BitVec 1 := BitVec.ofBool b

/-- The word of an instruction, from the formats R47 to R55 and the opcode map R56. The unused bits carry
the conventional values of 30_encoding.md section 2: ones for NOT, zeros elsewhere. -/
def encode : Instr → Word
  | .br n z p off => (Opcode.br.bits ++ flagBit n ++ flagBit z ++ flagBit p ++ off : BitVec (4 + 1 + 1 + 1 + 9))
  | .addReg dr sr1 sr2 => (Opcode.add.bits ++ regBits dr ++ regBits sr1 ++ 0b000#3 ++ regBits sr2 : BitVec (4 + 3 + 3 + 3 + 3))
  | .addImm dr sr1 imm => (Opcode.add.bits ++ regBits dr ++ regBits sr1 ++ 0b1#1 ++ imm : BitVec (4 + 3 + 3 + 1 + 5))
  | .ld dr off => (Opcode.ld.bits ++ regBits dr ++ off : BitVec (4 + 3 + 9))
  | .st sr off => (Opcode.st.bits ++ regBits sr ++ off : BitVec (4 + 3 + 9))
  | .jsr off => (Opcode.jsr.bits ++ 0b1#1 ++ off : BitVec (4 + 1 + 11))
  | .jsrr base => (Opcode.jsr.bits ++ 0b000#3 ++ regBits base ++ 0b000000#6 : BitVec (4 + 3 + 3 + 6))
  | .andReg dr sr1 sr2 => (Opcode.and.bits ++ regBits dr ++ regBits sr1 ++ 0b000#3 ++ regBits sr2 : BitVec (4 + 3 + 3 + 3 + 3))
  | .andImm dr sr1 imm => (Opcode.and.bits ++ regBits dr ++ regBits sr1 ++ 0b1#1 ++ imm : BitVec (4 + 3 + 3 + 1 + 5))
  | .ldr dr base off => (Opcode.ldr.bits ++ regBits dr ++ regBits base ++ off : BitVec (4 + 3 + 3 + 6))
  | .str sr base off => (Opcode.str.bits ++ regBits sr ++ regBits base ++ off : BitVec (4 + 3 + 3 + 6))
  | .rti => (Opcode.rti.bits ++ 0#12 : BitVec (4 + 12))
  | .not dr sr => (Opcode.not.bits ++ regBits dr ++ regBits sr ++ 0b111111#6 : BitVec (4 + 3 + 3 + 6))
  | .ldi dr off => (Opcode.ldi.bits ++ regBits dr ++ off : BitVec (4 + 3 + 9))
  | .sti sr off => (Opcode.sti.bits ++ regBits sr ++ off : BitVec (4 + 3 + 9))
  | .jmp base => (Opcode.jmp.bits ++ 0b000#3 ++ regBits base ++ 0b000000#6 : BitVec (4 + 3 + 3 + 6))
  | .ret => (Opcode.jmp.bits ++ 0b000#3 ++ regBits Reg.link ++ 0b000000#6 : BitVec (4 + 3 + 3 + 6))
  | .res => (Opcode.res.bits ++ 0#12 : BitVec (4 + 12))
  | .lea dr off => (Opcode.lea.bits ++ regBits dr ++ off : BitVec (4 + 3 + 9))
  | .trap v => (Opcode.trap.bits ++ 0b0000#4 ++ v : BitVec (4 + 4 + 8))
  | .getc => (Opcode.trap.bits ++ 0b0000#4 ++ Service.getc.vector : BitVec (4 + 4 + 8))
  | .out => (Opcode.trap.bits ++ 0b0000#4 ++ Service.out.vector : BitVec (4 + 4 + 8))
  | .puts => (Opcode.trap.bits ++ 0b0000#4 ++ Service.puts.vector : BitVec (4 + 4 + 8))
  | .inp => (Opcode.trap.bits ++ 0b0000#4 ++ Service.inp.vector : BitVec (4 + 4 + 8))
  | .putsp => (Opcode.trap.bits ++ 0b0000#4 ++ Service.putsp.vector : BitVec (4 + 4 + 8))
  | .halt => (Opcode.trap.bits ++ 0b0000#4 ++ Service.halt.vector : BitVec (4 + 4 + 8))

/-- The bits of an instruction's word that take part in decoding: all but those R47 to R55 mark unused
(R58; the spec's decision D7, UNVERIFIED, unsafe: log entry 9). -/
def usedBits : Instr → Word
  | .addReg _ _ _ | .andReg _ _ _ => 0b1111_111_111_1_00_111#16
  | .jsrr _ => 0b1111_1_00_111_000000#16
  | .rti | .res => 0b1111_000000000000#16
  | .not _ _ => 0b1111_111_111_000000#16
  | .jmp _ | .ret => 0b1111_000_111_000000#16
  | .trap _ | .getc | .out | .puts | .inp | .putsp | .halt => 0b1111_0000_11111111#16
  | .br _ _ _ _ | .addImm _ _ _ | .ld _ _ | .st _ _ | .jsr _ | .andImm _ _ _ | .ldr _ _ _ | .str _ _ _
  | .ldi _ _ | .sti _ _ | .lea _ _ => 0b1111_111111111111#16

/-- The opcode of an instruction's word (R56). -/
def Instr.opcode : Instr → Opcode
  | .br _ _ _ _ => .br
  | .addReg _ _ _ | .addImm _ _ _ => .add
  | .ld _ _ => .ld
  | .st _ _ => .st
  | .jsr _ | .jsrr _ => .jsr
  | .andReg _ _ _ | .andImm _ _ _ => .and
  | .ldr _ _ _ => .ldr
  | .str _ _ _ => .str
  | .rti => .rti
  | .not _ _ => .not
  | .ldi _ _ => .ldi
  | .sti _ _ => .sti
  | .jmp _ | .ret => .jmp
  | .res => .res
  | .lea _ _ => .lea
  | .trap _ | .getc | .out | .puts | .inp | .putsp | .halt => .trap

/-! ### Words and bytes -/

/-- Why a sequence of bytes holds no instruction word. -/
inductive DecodeError where
  /-- Fewer than the two bytes of one word are left. -/
  | truncatedWord
  deriving DecidableEq, Repr

/-- The bytes of a word, high byte first: the order of the object file (70_reset_and_hazards.md R196). -/
def wordToBytes (w : Word) : List Byte := [w.extractLsb' 8 8, w.extractLsb' 0 8]

/-- A word from its high and its low byte. -/
def wordOfBytes (hi lo : Byte) : Word := (hi ++ lo : BitVec (8 + 8))

/-- The instruction at the head of a byte sequence and the bytes after it. -/
def decodeBytes : List Byte → Except DecodeError (Instr × List Byte)
  | hi :: lo :: rest => .ok (decode (wordOfBytes hi lo), rest)
  | _ => .error .truncatedWord

/-- The instruction word whose `nbits` low bits the opcode table numbers and whose bits above are zero. -/
def tableWord (nbits w : Nat) : Word := BitVec.ofNat 16 (w % 2 ^ nbits)

/-- The instruction the decoder reads from a word of spec/opcode_table.json; every word has 16 bits (R45). -/
def decodeTableWord (nbits w : Nat) : Option Instr :=
  if nbits ≤ 16 then
    match decodeBytes (wordToBytes (tableWord nbits w)) with
    | .ok (i, _) => some i
    | .error _ => none
  else none

end Sys2Proof
end

