-- ==== Sys2Proof/Config.lean ====
section
/-! DEFINITION. What is fixed for the machine (00_scope.md R3 and its table of open parameters) and the
free values: constants without a body, of which nothing can be proved but what holds of every value. -/

namespace Sys2Proof

/-- The memory has 65536 words, addresses 0 to 65535 (R3, R30). -/
def Config.memoryWords : Nat := 65536

/-- `RESET_PC`: the program counter after reset is 0x0000 (R26, R191; the spec's decision D6).
UNVERIFIED, unsafe: log entry 5. -/
def Config.resetPc : Word := 0x0000#16

/-- `IN_PROMPT`: the fixed byte string that trap service 0x23 writes before it reads (R158). The spec
leaves the text open and makes it a parameter (D15, U7): a free value, safe. Log entry 18. -/
opaque Config.inPrompt : List Byte

/-- The byte the host delivers when a console read finds none waiting on an open input stream: the
n-th such byte (R134; `INPUT` is an oracle, D14). A free value, safe. Log entry 17. -/
opaque Config.hostByte : Nat → Byte

end Sys2Proof
end

