-- ==== Sys2Proof/Machine/State.lean ====
section
/-! DEFINITION. The state of the machine (10_state.md), the state after reset, and the reasons a step can
stop. The state holds the eight general registers, the program counter, the condition flags, the run
status, the memory and the two console streams, and nothing else persists between steps (R10 to R25). -/

namespace Sys2Proof.Machine

/-- The condition-flag state, exactly one of three values (R17). Their encoding in two bits cannot be
observed (D22, log entry 26). -/
inductive Cond where
  | negative | zero | positive
  deriving DecidableEq, Repr

/-- The run status (R20). -/
inductive Status where
  | running
  | halted
  | failed (v : Byte)
  deriving DecidableEq, Repr

/-- The memory of 65536 words, held as the cells of its bytes: cell `2a` is bits 15 to 8 and cell `2a + 1`
bits 7 to 0 of the word at word address `a`. No instruction can see the halves apart, so the order of the
two cells cannot be observed (R35). DESIGN CHOICE, safe: log entry 21. -/
abbrev Memory := List Host.Cell

/-- The whole state of the machine. -/
structure State where
  /-- The general registers `x[0]` to `x[7]` (R10). -/
  regs : Vector Word 8
  /-- The program counter (R14). -/
  pc : Word
  /-- The condition flags (R17). -/
  cond : Cond
  /-- The run status (R20). -/
  status : Status
  /-- The memory (R30). -/
  mem : Memory
  /-- The console output stream, oldest byte first (R25). -/
  output : List Byte
  /-- The console input stream: the bytes the host has delivered and no service has taken yet, oldest
  first (R25). -/
  input : List Byte
  /-- The input stream has ended: no byte will come after `input` (R134). -/
  inputEnded : Bool
  /-- The model's own counter, no state of the spec: how many bytes of `Config.hostByte` have been taken. -/
  inputDraws : Nat
  deriving DecidableEq, Repr

/-- `RESET_COND`: the flags after reset are ZERO (R26; the spec's decision D5). UNVERIFIED, unsafe: log
entry 4. -/
def State.resetCond : Cond := .zero

/-- The machine right after reset, before a program is loaded (R26, R190): all zero, running, nothing
listed in memory, nothing written. The input stream is "whatever the host supplies": open, with no byte
known in advance (log entry 17). -/
def State.reset : State where
  regs := Vector.replicate 8 0x0000#16
  pc := Config.resetPc
  cond := State.resetCond
  status := .running
  mem := []
  output := []
  input := []
  inputEnded := false
  inputDraws := 0

/-- Why the machine takes no step. -/
inductive Fault where
  /-- Raised by `step` alone, when the run status is HALTED: a terminal state has no step (R20, R133). Safe:
  the hardware does nothing either. -/
  | halted
  /-- Raised by `step` alone, when the run status is FAILED(v) (R20, R133). Safe, for the same reason. -/
  | failed (v : Byte)
  /-- Raised by services 0x20 and 0x23 (`getc`, `inp`, `trap`): the input stream has ended, no byte will
  come, and the core is stuck inside the service (R134, D14, U5). `held` is the state it is stuck in: `pc`
  incremented, the prompt of 0x23 written, `x[0]` not written (R136). Safe: log entry 12. -/
  | inputEnded (held : State)
  /-- Raised by services 0x22 and 0x24 (`puts`, `putsp`, `trap`): no word of memory ends the string, so the
  service never ends (R157, R159, U9). Safe: log entry 24. -/
  | endlessString
  deriving DecidableEq, Repr

/-- Why an instruction has no meaning. No meaning of this model refuses. -/
inductive Refusal where
  /-- Raised by an arm of `exec` whose instruction is not modelled; no arm is. Safe: nothing is claimed. -/
  | notModelled (mnemonic : String)
  deriving DecidableEq, Repr

end Sys2Proof.Machine
end

