-- ==== Sys2Proof/Machine/Ops.lean ====
section
/-! DEFINITION. The operations the meanings share: memory (20_memory.md), the register ports, the fetch, the
alu and the load-store unit (50_core_blocks.md R122, R125, R127, R129), the console ports (R134), and the
trap controller with its six services and its one failure (60_exceptions.md R152 to R162). -/

namespace Sys2Proof.Machine

/-! ### Memory -/

/-- What a byte cell that is not listed reads as: the memory is zero wherever nothing was written (R30,
R31). -/
def Memory.unlisted : Byte := 0x00#8

/-- The byte in one cell. -/
def Memory.byteAt : Memory → Nat → Byte
  | [], _ => Memory.unlisted
  | c :: m, k => if c.1 = k then c.2 else Memory.byteAt m k

/-- Put a cell before the first one of a higher address. -/
def Memory.insertCell (c : Host.Cell) : Memory → Memory
  | [] => [c]
  | d :: m => if c.1 < d.1 then c :: d :: m else d :: Memory.insertCell c m

/-- Write the byte of one cell; a cell that reads as an unlisted one does is not listed. -/
def Memory.setByte (m : Memory) (k : Nat) (b : Byte) : Memory :=
  let rest := m.filter fun c => c.1 != k
  if b = Memory.unlisted then rest else Memory.insertCell (k, b) rest

/-- The cell of bits 15 to 8 of the word at `a`. -/
def Memory.highCell (a : Word) : Nat := 2 * a.toNat

/-- The cell of bits 7 to 0 of the word at `a`. -/
def Memory.lowCell (a : Word) : Nat := 2 * a.toNat + 1

/-- `MemRead(addr, 1)` (R31): every address is valid and a read changes nothing. -/
def Memory.read (m : Memory) (a : Word) : Word :=
  wordOfBytes (m.byteAt (Memory.highCell a)) (m.byteAt (Memory.lowCell a))

/-- `MemWrite(addr, 1, v)` (R32): the whole word, at once. -/
def Memory.write (m : Memory) (a v : Word) : Memory :=
  (m.setByte (Memory.highCell a) (v.extractLsb' 8 8)).setByte (Memory.lowCell a) (v.extractLsb' 0 8)

/-- The canonical form: cells of the 65536 words only, addresses strictly rising, none listed that reads
as an unlisted cell does. -/
abbrev Memory.wf (m : Memory) : Prop :=
  m.Pairwise (fun c d => c.1 < d.1) ∧ ∀ c ∈ m, c.1 < 2 * Config.memoryWords ∧ c.2 ≠ Memory.unlisted

/-- The word at an address. -/
def State.load (s : State) (a : Word) : Word := s.mem.read a

/-- The state with a word stored. -/
def State.store (s : State) (a v : Word) : State := { s with mem := s.mem.write a v }

/-! ### Registers (R10, R125) -/

/-- Read general register `r`. -/
def State.reg (s : State) (r : Reg) : Word := s.regs[r]

/-- Write general register `r`. -/
def State.setReg (s : State) (r : Reg) (v : Word) : State := { s with regs := s.regs.set r v }

/-- Write the program counter. -/
def State.setPc (s : State) (target : Word) : State := { s with pc := target }

/-! ### The fetch unit (R122) -/

/-- The instruction word: one read at `pc`. -/
def State.fetchWord (s : State) : Word := s.load s.pc

/-- The increment of `pc`, made on every fetch before execution (R14). From 0xFFFF it goes to 0x0000 (R15;
the spec's decision D3, UNVERIFIED, unsafe: log entry 2). -/
def State.advance (s : State) : State := s.setPc (s.pc + 1#16)

/-! ### The alu (R127) -/

/-- What the alu is asked for. -/
inductive AluOp where
  | add | and | not | pass
  deriving DecidableEq, Repr

/-- The alu: a function of its two inputs, with no flag output. -/
def alu (op : AluOp) (a b : Word) : Word :=
  match op with
  | .add => a + b
  | .and => a &&& b
  | .not => a ^^^ 0xFFFF#16
  | .pass => a

/-! ### The load-store unit (R129) -/

/-- LOAD. -/
def State.lsuLoad (s : State) (addr : Word) : Word := s.load addr

/-- LOAD_INDIRECT: the first read gives the address of the second. -/
def State.lsuLoadIndirect (s : State) (addr : Word) : Word := s.load (s.load addr)

/-- STORE. -/
def State.lsuStore (s : State) (addr wdata : Word) : State := s.store addr wdata

/-- STORE_INDIRECT: the read gives the address of the write. -/
def State.lsuStoreIndirect (s : State) (addr wdata : Word) : State := s.store (s.load addr) wdata

/-! ### The console ports (R134) -/

/-- `zext_8` (00_scope.md section 5). -/
def zext8 (b : Byte) : Word := b.setWidth 16

/-- The low byte of a word. -/
def lowByte (w : Word) : Byte := w.extractLsb' 0 8

/-- The high byte of a word. -/
def highByte (w : Word) : Byte := w.extractLsb' 8 8

/-- `ConsoleOut` of each byte in order. The port always accepts and a byte is in the stream at once (D20,
D24: UNVERIFIED, unsafe, log entry 19). -/
def State.emit (s : State) (bs : List Byte) : State := { s with output := s.output ++ bs }

/-- `ConsoleIn`: the next byte and the state after it is taken. Where no byte waits the core waits until
one comes, and which one comes is free (`Config.hostByte`, log entry 17). `none`: the stream has ended and
no byte will ever come (log entry 12). -/
def State.consoleIn (s : State) : Option (Byte × State) :=
  match s.input with
  | b :: rest => some (b, { s with input := rest })
  | [] =>
    if s.inputEnded then none
    else some (Config.hostByte s.inputDraws, { s with inputDraws := s.inputDraws + 1 })

/-! ### The trap controller (R131, R152 to R162) -/

/-- The bytes PUTS writes for the string at `a`, if a zero word ends it within `fuel` words (R157). The
address wraps (D18: UNVERIFIED, unsafe, log entry 15). -/
def putsBytes (m : Memory) : Nat → Word → Option (List Byte)
  | 0, _ => none
  | fuel + 1, a =>
    if m.read a = 0x0000#16 then some []
    else (putsBytes m fuel (a + 1#16)).map (lowByte (m.read a) :: ·)

/-- The bytes PUTSP writes for the packed string at `a`, if a zero byte ends it within `fuel` words (R159):
the low byte of a word before its high byte, up to the first that is zero. That a zero low byte ends the
string whatever the high byte holds is the spec's decision D19: UNVERIFIED, unsafe, log entry 16. -/
def putspBytes (m : Memory) : Nat → Word → Option (List Byte)
  | 0, _ => none
  | fuel + 1, a =>
    if lowByte (m.read a) = 0x00#8 then some []
    else if highByte (m.read a) = 0x00#8 then some [lowByte (m.read a)]
    else (putspBytes m fuel (a + 1#16)).map fun bs => lowByte (m.read a) :: highByte (m.read a) :: bs

/-- Service 0x20 (R155): a byte into `x[0]`, zero-extended (D11, log entry 10), no echo, `cond` unchanged
(D12, log entry 11). -/
def serviceGetc (s : State) : Host.Outcome State Fault Refusal :=
  match s.consoleIn with
  | some (c, s') => .next (s'.setReg 0 (zext8 c))
  | none => .fault (.inputEnded s)

/-- Service 0x21 (R156): the low byte of `x[0]` to the output. -/
def serviceOut (s : State) : Host.Outcome State Fault Refusal := .next (s.emit [lowByte (s.reg 0)])

/-- Service 0x22 (R157): the string of words at `x[0]`; `x[0]` keeps the address (D25, log entry 20). After
65536 words every word of memory has been read, and a string still without end never ends (U9). -/
def servicePuts (s : State) : Host.Outcome State Fault Refusal :=
  match putsBytes s.mem Config.memoryWords (s.reg 0) with
  | some bs => .next (s.emit bs)
  | none => .fault .endlessString

/-- Service 0x23 (R158): the prompt, a byte into `x[0]`, and its echo. -/
def serviceIn (s : State) : Host.Outcome State Fault Refusal :=
  match (s.emit Config.inPrompt).consoleIn with
  | some (c, s') => .next ((s'.setReg 0 (zext8 c)).emit [c])
  | none => .fault (.inputEnded (s.emit Config.inPrompt))

/-- Service 0x24 (R159): the packed string at `x[0]`; `x[0]` keeps the address (D25, log entry 20). -/
def servicePutsp (s : State) : Host.Outcome State Fault Refusal :=
  match putspBytes s.mem Config.memoryWords (s.reg 0) with
  | some bs => .next (s.emit bs)
  | none => .fault .endlessString

/-- Service 0x25 (R160): HALTED, and nothing else. -/
def serviceHalt (s : State) : Host.Outcome State Fault Refusal := .next { s with status := .halted }

/-- `raise UnknownTrapVector(v)` (R161), the machine's one fault: FAILED(v), and nothing else. The report is
the vector kept in the status, no byte of the output (D16: UNVERIFIED, unsafe, log entry 13). -/
def raiseUnknownTrapVector (v : Byte) (s : State) : Host.Outcome State Fault Refusal :=
  .next { s with status := .failed v }

/-- Taking a trap (R152, R153): the vector is compared with the fixed table and its service performed. Entry
saves nothing and writes no register, `pc` stays the address after the TRAP word, and there is no mode to
change and no handler to go to. The return from a trap is nothing but the end of the service: nothing was
saved and nothing is restored (R162). -/
def service (v : Byte) (s : State) : Host.Outcome State Fault Refusal :=
  match Service.ofVector v with
  | some .getc => serviceGetc s
  | some .out => serviceOut s
  | some .puts => servicePuts s
  | some .inp => serviceIn s
  | some .putsp => servicePutsp s
  | some .halt => serviceHalt s
  | none => raiseUnknownTrapVector v s

/-- The outcome every instruction hands to the step sequencer (R24, R132): CONTINUE or TRAP(v). -/
inductive ExecOutcome where
  | cont
  | trap (v : Byte)
  deriving DecidableEq, Repr

/-- The end of a step (the last line of R121): on TRAP(v) the trap controller performs the service before
the next fetch, on CONTINUE the step is over. -/
def sequencer (outcome : ExecOutcome) (s : State) : Host.Outcome State Fault Refusal :=
  match outcome with
  | .cont => .next s
  | .trap v => service v s

end Sys2Proof.Machine
end

