-- ==== Sys2Proof/Machine/Flags.lean ====
section
/-! DEFINITION. The condition-flag logic (50_core_blocks.md R128): the flags of a written value, their
refresh, and BR's test. -/

namespace Sys2Proof.Machine

/-- `flag_of(v)` (R17): ZERO for 0x0000, NEGATIVE where bit 15 is 1, POSITIVE otherwise. -/
def flagOf (v : Word) : Cond :=
  if v = 0x0000#16 then .zero else if v.getLsbD 15 then .negative else .positive

/-- `setcc(i)` (R18): the flags from the value register `i` now holds. -/
def State.setcc (s : State) (i : Reg) : State := { s with cond := flagOf (s.reg i) }

/-- The end of each of the seven instructions that write DR: the write, then the flags from it (R11, R18). -/
def State.writeBack (s : State) (dr : Reg) (v : Word) : State := (s.setReg dr v).setcc dr

/-- `br_taken` (R80, R128). -/
def brTaken (n z p : Bool) (c : Cond) : Bool :=
  (n && c == .negative) || (z && c == .zero) || (p && c == .positive)

end Sys2Proof.Machine
end

