-- ==== Sys2Proof/Machine/Operands.lean ====
section
/-! DEFINITION. The operands (30_encoding.md R57) and the addressing modes (42_load.md R94). Every address
sum is taken modulo 65536 (R33; the spec's decision D4, UNVERIFIED, unsafe: log entry 3), and `pc` is the
incremented program counter (R14). -/

namespace Sys2Proof.Machine

/-- `sext_N` (R4). -/
def sext {n : Nat} (v : BitVec n) : Word := v.signExtend 16

/-- The second input of the alu from an immediate field. -/
def immOperand (imm5 : BitVec 5) : Word := sext imm5

/-- PC-relative with a 9-bit offset: BR, LD, LEA, ST, and the pointer of LDI, STI. -/
def State.pcRel9 (s : State) (off : BitVec 9) : Word := alu .add s.pc (sext off)

/-- PC-relative with an 11-bit offset: JSR. -/
def State.pcRel11 (s : State) (off : BitVec 11) : Word := alu .add s.pc (sext off)

/-- Base plus offset: LDR, STR. -/
def State.baseOffset (s : State) (base : Reg) (off : BitVec 6) : Word := alu .add (s.reg base) (sext off)

end Sys2Proof.Machine
end

