-- ==== Sys2Proof/Machine/Control.lean ====
section
/-! DEFINITION. Control transfer: BR, JMP, RET, JSR, JSRR (41_control.md R80 to R85). `pc` is the incremented
program counter. None writes the flags, and there is no delay slot. -/

namespace Sys2Proof.Machine

/-- BR (R80). -/
def execBr (n z p : Bool) (off : BitVec 9) (s : State) : Host.Outcome State Fault Refusal :=
  sequencer .cont (if brTaken n z p s.cond then s.setPc (s.pcRel9 off) else s)

/-- The jump through a register that JMP makes (R81). -/
def State.jumpRegister (s : State) (base : Reg) : State := s.setPc (alu .pass (s.reg base) (s.reg base))

/-- The link write of JSR and JSRR (R12, R83, R84): the return address into register 7, the flags left
alone. -/
def State.link (s : State) : State := s.setReg Reg.link s.pc

/-- JMP (R81). -/
def execJmp (base : Reg) (s : State) : Host.Outcome State Fault Refusal :=
  sequencer .cont (s.jumpRegister base)

/-- RET, the name of JMP through register 7 (R82). -/
def execRet (s : State) : Host.Outcome State Fault Refusal :=
  sequencer .cont (s.jumpRegister Reg.link)

/-- JSR (R83): the link first, then the jump. -/
def execJsr (off : BitVec 11) (s : State) : Host.Outcome State Fault Refusal :=
  sequencer .cont (s.link.setPc (s.link.pcRel11 off))

/-- JSRR (R84): the link first, then BaseR is read, so that `JSRR R7` goes to the return address just saved
(the spec's decision D10, UNVERIFIED, unsafe: log entry 6). -/
def execJsrr (base : Reg) (s : State) : Host.Outcome State Fault Refusal :=
  sequencer .cont (s.link.jumpRegister base)

end Sys2Proof.Machine
end

