-- ==== Sys2Proof/Machine/Load.lean ====
section
/-! DEFINITION. The loads LD, LDI, LDR and the address instruction LEA (42_load.md R90 to R94). Each writes DR
and refreshes the flags from it. -/

namespace Sys2Proof.Machine

/-- LD (R90). -/
def execLd (dr : Reg) (off : BitVec 9) (s : State) : Host.Outcome State Fault Refusal :=
  sequencer .cont (s.writeBack dr (s.lsuLoad (s.pcRel9 off)))

/-- LDI (R91): the pointer, then the data. -/
def execLdi (dr : Reg) (off : BitVec 9) (s : State) : Host.Outcome State Fault Refusal :=
  sequencer .cont (s.writeBack dr (s.lsuLoadIndirect (s.pcRel9 off)))

/-- LDR (R92): the base register is read before DR is written. -/
def execLdr (dr base : Reg) (off : BitVec 6) (s : State) : Host.Outcome State Fault Refusal :=
  sequencer .cont (s.writeBack dr (s.lsuLoad (s.baseOffset base off)))

/-- LEA (R93): the address itself; memory is not read. -/
def execLea (dr : Reg) (off : BitVec 9) (s : State) : Host.Outcome State Fault Refusal :=
  sequencer .cont (s.writeBack dr (s.pcRel9 off))

end Sys2Proof.Machine
end

