-- ==== Sys2Proof/Machine/Operate.lean ====
section
/-! DEFINITION. The operate instructions ADD, AND, NOT (40_operate.md R70 to R75). Each computes from the
registers as they stand, writes DR, refreshes the flags from it and continues. -/

namespace Sys2Proof.Machine

/-- ADD, register form (R70). -/
def execAddReg (dr sr1 sr2 : Reg) (s : State) : Host.Outcome State Fault Refusal :=
  sequencer .cont (s.writeBack dr (alu .add (s.reg sr1) (s.reg sr2)))

/-- ADD, immediate form (R71). -/
def execAddImm (dr sr1 : Reg) (imm5 : BitVec 5) (s : State) : Host.Outcome State Fault Refusal :=
  sequencer .cont (s.writeBack dr (alu .add (s.reg sr1) (immOperand imm5)))

/-- AND, register form (R72). -/
def execAndReg (dr sr1 sr2 : Reg) (s : State) : Host.Outcome State Fault Refusal :=
  sequencer .cont (s.writeBack dr (alu .and (s.reg sr1) (s.reg sr2)))

/-- AND, immediate form (R73): the immediate is sign-extended first. -/
def execAndImm (dr sr1 : Reg) (imm5 : BitVec 5) (s : State) : Host.Outcome State Fault Refusal :=
  sequencer .cont (s.writeBack dr (alu .and (s.reg sr1) (immOperand imm5)))

/-- NOT (R74). The alu does not use its second input. -/
def execNot (dr sr : Reg) (s : State) : Host.Outcome State Fault Refusal :=
  sequencer .cont (s.writeBack dr (alu .not (s.reg sr) (s.reg sr)))

end Sys2Proof.Machine
end

