-- ==== Sys2Proof/Machine/Store.lean ====
section
/-! DEFINITION. The stores ST, STI, STR (43_store.md R100 to R103). Each writes one word of memory and nothing
else. -/

namespace Sys2Proof.Machine

/-- ST (R100). -/
def execSt (sr : Reg) (off : BitVec 9) (s : State) : Host.Outcome State Fault Refusal :=
  sequencer .cont (s.lsuStore (s.pcRel9 off) (s.reg sr))

/-- STI (R101): the pointer is read, then the data is written where it points. -/
def execSti (sr : Reg) (off : BitVec 9) (s : State) : Host.Outcome State Fault Refusal :=
  sequencer .cont (s.lsuStoreIndirect (s.pcRel9 off) (s.reg sr))

/-- STR (R102). -/
def execStr (sr base : Reg) (off : BitVec 6) (s : State) : Host.Outcome State Fault Refusal :=
  sequencer .cont (s.lsuStore (s.baseOffset base off) (s.reg sr))

end Sys2Proof.Machine
end

