-- ==== Sys2Proof/Machine/System.lean ====
section
/-! DEFINITION. The system instructions TRAP, RTI, RES (44_trap_and_reserved.md R110 to R113) and the names
that the six TRAP words of the service table have (30_encoding.md R64). -/

namespace Sys2Proof.Machine

/-- TRAP (R110): the outcome TRAP(vector) and nothing else; the trap controller does the rest. -/
def execTrap (v : Byte) (s : State) : Host.Outcome State Fault Refusal := sequencer (.trap v) s

/-- RTI (R111): no behaviour. -/
def execRti (s : State) : Host.Outcome State Fault Refusal := sequencer .cont s

/-- RES (R112): no behaviour. -/
def execRes (s : State) : Host.Outcome State Fault Refusal := sequencer .cont s

/-- GETC: TRAP x20 (R155). -/
def execGetc (s : State) : Host.Outcome State Fault Refusal := sequencer (.trap Service.getc.vector) s

/-- OUT: TRAP x21 (R156). -/
def execOut (s : State) : Host.Outcome State Fault Refusal := sequencer (.trap Service.out.vector) s

/-- PUTS: TRAP x22 (R157). -/
def execPuts (s : State) : Host.Outcome State Fault Refusal := sequencer (.trap Service.puts.vector) s

/-- IN: TRAP x23 (R158). -/
def execInp (s : State) : Host.Outcome State Fault Refusal := sequencer (.trap Service.inp.vector) s

/-- PUTSP: TRAP x24 (R159). -/
def execPutsp (s : State) : Host.Outcome State Fault Refusal := sequencer (.trap Service.putsp.vector) s

/-- HALT: TRAP x25 (R160). -/
def execHalt (s : State) : Host.Outcome State Fault Refusal := sequencer (.trap Service.halt.vector) s

end Sys2Proof.Machine
end

