-- ==== Sys2Proof/Machine/Step.lean ====
section
/-! DEFINITION. The step of the machine (50_core_blocks.md R121) and the placing of one instruction word where
it is fetched next. -/

namespace Sys2Proof.Machine

/-- One step (R121): fetch, increment, decode, execute, and the trap's service inside `exec`. A machine that
is not running takes no step (R20). -/
def step (s : State) : Host.Outcome State Fault Refusal :=
  match s.status with
  | .running => exec (decode s.fetchWord) s.advance
  | .halted => .fault .halted
  | .failed v => .fault (.failed v)

/-- The state with an instruction word of the opcode table stored at `pc`, where the next step fetches. It
stands for the loader, which writes the image into memory before the first step (R193, R194; log entry
25). -/
def State.withFetchWord (s : State) (nbits w : Nat) : State := s.store s.pc (tableWord nbits w)

end Sys2Proof.Machine
end

