-- ==== Sys2Proof/Machine/Loader.lean ====
section
/-! DEFINITION. What the loader leaves in memory (70_reset_and_hazards.md R194) and the object file it reads
(R196). The loader is outside the core: no step calls these, and they say how a program comes to stand in
memory before the first step. -/

namespace Sys2Proof.Machine

/-- The words of an object file: byte pairs, high byte first; an odd byte count is a load error (R196). -/
def objectWords : List Byte → Option (List Word)
  | [] => some []
  | [_] => none
  | hi :: lo :: rest => (objectWords rest).map (wordOfBytes hi lo :: ·)

/-- Write words at consecutive addresses from `a` on (R194). -/
def Memory.writeWords (m : Memory) (a : Word) : List Word → Memory
  | [] => m
  | w :: ws => Memory.writeWords (m.write a w) (a + 1#16) ws

/-- Load an image: the words at consecutive addresses from its origin. No register is touched. An image
that does not fit below 0x10000 is a case the spec leaves undecided (D13). DESIGN CHOICE, safe: it is not
loaded, log entry 25. -/
def State.loadImage (s : State) (origin : Word) (ws : List Word) : Option State :=
  if origin.toNat + ws.length ≤ Config.memoryWords then some { s with mem := s.mem.writeWords origin ws }
  else none

/-- Load an object file: its first word is the origin, and an odd byte count is a load error (R196). A file
of zero bytes has no origin word; R196 names no error for it and D13 leaves loader corner cases undecided.
DESIGN CHOICE, safe: it is not loaded, log entry 25. -/
def State.loadObject (s : State) (file : List Byte) : Option State :=
  match objectWords file with
  | some (origin :: ws) => s.loadImage origin ws
  | _ => none

end Sys2Proof.Machine
end

