-- ==== Sys2Proof/Machine/Access.lean ====
section
/-! DEFINITION. What each instruction touches, as the spec's tables list it: the registers it writes
(10_state.md R11), the flags (R18), and the data accesses to memory in their order (20_memory.md R34). No
step calls these; the claims hold the meanings against them. The state is the one `exec` is given, with
`pc` already incremented. -/

namespace Sys2Proof.Machine

/-- One data access (R34): every access moves one whole word (R37). -/
inductive Access where
  | read (a : Word)
  | write (a v : Word)
  deriving DecidableEq, Repr

/-- The addresses PUTS reads: up to and including the first zero word (R157). -/
def putsReads (m : Memory) : Nat → Word → List Word
  | 0, _ => []
  | fuel + 1, a => if m.read a = 0x0000#16 then [a] else a :: putsReads m fuel (a + 1#16)

/-- The addresses PUTSP reads: up to and including the terminating word (R159). -/
def putspReads (m : Memory) : Nat → Word → List Word
  | 0, _ => []
  | fuel + 1, a =>
    if lowByte (m.read a) = 0x00#8 ∨ highByte (m.read a) = 0x00#8 then [a]
    else a :: putspReads m fuel (a + 1#16)

/-- The accesses of a trap service (R34, last three rows). -/
def serviceAccesses (v : Byte) (s : State) : List Access :=
  match Service.ofVector v with
  | some .puts => (putsReads s.mem Config.memoryWords (s.reg 0)).map .read
  | some .putsp => (putspReads s.mem Config.memoryWords (s.reg 0)).map .read
  | _ => []

/-- The data accesses of an instruction and its trap service, in order (R34). The fetch is not among them. -/
def dataAccesses (i : Instr) (s : State) : List Access :=
  match i.core with
  | .ld _ off => [.read (s.pcRel9 off)]
  | .ldr _ base off => [.read (s.baseOffset base off)]
  | .ldi _ off => [.read (s.pcRel9 off), .read (s.load (s.pcRel9 off))]
  | .st sr off => [.write (s.pcRel9 off) (s.reg sr)]
  | .str sr base off => [.write (s.baseOffset base off) (s.reg sr)]
  | .sti sr off => [.read (s.pcRel9 off), .write (s.load (s.pcRel9 off)) (s.reg sr)]
  | .trap v => serviceAccesses v s
  | _ => []

/-- The address a store stores to. -/
def storeAddress (i : Instr) (s : State) : Option Word :=
  match i with
  | .st _ off => some (s.pcRel9 off)
  | .sti _ off => some (s.load (s.pcRel9 off))
  | .str _ base off => some (s.baseOffset base off)
  | _ => none

/-- The destination register of the seven instructions that write DR and refresh the flags from it (R11,
R18). -/
def flagSetter : Instr → Option Reg
  | .addReg dr _ _ | .addImm dr _ _ | .andReg dr _ _ | .andImm dr _ _ | .not dr _ | .ld dr _ | .ldi dr _
  | .ldr dr _ _ | .lea dr _ => some dr
  | _ => none

/-- The general register an instruction, or its trap service, writes (R11). -/
def writtenRegister (i : Instr) : Option Reg :=
  match i.core with
  | .jsr _ | .jsrr _ => some Reg.link
  | .trap v => if v = Service.getc.vector ∨ v = Service.inp.vector then some 0 else none
  | j => flagSetter j

end Sys2Proof.Machine
end

