-- ==== Sys2Proof/Safety.lean ====
section
/-! DEFINITION. The terms the claims use: the invariant of the state, what it is for a part of the state to be
unchanged, and the ways a run ends (60_exceptions.md R150, R172). -/

namespace Sys2Proof.Machine

/-- The invariant every step keeps: the memory is in its canonical form. -/
abbrev State.Inv (s : State) : Prop := s.mem.wf

/-- A run has ended well: HALTED (R172). -/
abbrev State.EndedWell (s : State) : Prop := s.status = .halted

/-- `k` steps, stopping at the first that is not taken. -/
def stepTimes : Nat → State → Host.Outcome State Fault Refusal
  | 0, s => .next s
  | k + 1, s =>
    match step s with
    | .next t => stepTimes k t
    | .fault f => .fault f
    | .refused r => .refused r

/-- Every general register but the listed ones is as before. -/
def RegsSameExcept (ds : List Reg) (s t : State) : Prop := ∀ r, r ∉ ds → t.reg r = s.reg r

/-- Every byte of memory is as before but the bytes of the words at the listed addresses. -/
def MemSameExcept (ws : List Word) (s t : State) : Prop :=
  ∀ k, (∀ a ∈ ws, k ≠ Memory.highCell a ∧ k ≠ Memory.lowCell a) → t.mem.byteAt k = s.mem.byteAt k

/-- The console is as before: nothing written, nothing taken. -/
def ConsoleSame (s t : State) : Prop :=
  t.output = s.output ∧ t.input = s.input ∧ t.inputEnded = s.inputEnded ∧ t.inputDraws = s.inputDraws

/-- The registers but the listed ones, the flags, `pc` and the run status are as before, and so is all of
memory: what an output service and a no-operation leave. -/
def CoreSameExcept (ds : List Reg) (s t : State) : Prop :=
  RegsSameExcept ds s t ∧ t.cond = s.cond ∧ t.pc = s.pc ∧ t.status = s.status ∧ MemSameExcept [] s t

end Sys2Proof.Machine
end

