-- ==== Sys2Proof/Certificates/Slice0/Obligations.lean ====
section
/-! DEFINITION. The statements about this model, for the provers. Each docstring names the rules of the spec
that its statement formalises, and the log entry where it rests on a decision. `exec` is given the state
after the fetch, with `pc` already incremented. -/

open Sys2Proof Sys2Proof.Machine

/-! ### Encoding and decoding -/

/-- Formats R47 to R55 and map R56: no operand bit is lost between the encoder and the decoder. Rests on the
opcode numbers and field positions of D8 and D9 (log entries 7, 8) and on the spelling of entry 22. -/
def Obligations.EncodeThenDecodeGivesTheInstruction : Prop :=
  ∀ i : Instr, i.wf = true → decode (encode i) = i

/-- R58, R60: every word decodes; the decoded instruction's own word agrees with it on every used bit; and a
word that agrees with it on the used bits is the same instruction. Rests on D7 (log entry 9) and on D8, D9
(log entries 7, 8). That the decoded instruction is well-formed is the model's choice of spelling (log entry
22): a JMP through register 7 and a TRAP of a service vector are written by their names. -/
def Obligations.DecodeDependsOnTheUsedBitsOnly : Prop :=
  ∀ w : Word, (decode w).wf = true ∧
    encode (decode w) &&& usedBits (decode w) = w &&& usedBits (decode w) ∧
    ∀ w' : Word, w' &&& usedBits (decode w) = w &&& usedBits (decode w) → decode w' = decode w

/-- R47 to R55 and the case list of R62: a word laid out field by field as the format tables draw it, with
any value in the unused bits, is the variant R62 names with those fields. Rests on D7, D8, D9 (log entries
7, 8, 9). -/
def Obligations.FormatWordsDecodeWhateverTheUnusedBits : Prop :=
  ∀ (r q u : Reg) (n z p : Bool) (i5 : BitVec 5) (o6 u6 : BitVec 6) (o9 : BitVec 9) (o11 : BitVec 11)
    (v : Byte) (u2 : BitVec 2) (u3 : BitVec 3) (u4 : BitVec 4) (u12 : BitVec 12),
    decodeCore (0b0000#4 ++ BitVec.ofBool n ++ BitVec.ofBool z ++ BitVec.ofBool p ++ o9 : BitVec (4 + 1 + 1 + 1 + 9)) = .br n z p o9 ∧
    decodeCore (0b0001#4 ++ regBits r ++ regBits q ++ 0b0#1 ++ u2 ++ regBits u : BitVec (4 + 3 + 3 + 1 + 2 + 3)) = .addReg r q u ∧
    decodeCore (0b0001#4 ++ regBits r ++ regBits q ++ 0b1#1 ++ i5 : BitVec (4 + 3 + 3 + 1 + 5)) = .addImm r q i5 ∧
    decodeCore (0b0010#4 ++ regBits r ++ o9 : BitVec (4 + 3 + 9)) = .ld r o9 ∧
    decodeCore (0b0011#4 ++ regBits r ++ o9 : BitVec (4 + 3 + 9)) = .st r o9 ∧
    decodeCore (0b0100#4 ++ 0b1#1 ++ o11 : BitVec (4 + 1 + 11)) = .jsr o11 ∧
    decodeCore (0b0100#4 ++ 0b0#1 ++ u2 ++ regBits q ++ u6 : BitVec (4 + 1 + 2 + 3 + 6)) = .jsrr q ∧
    decodeCore (0b0101#4 ++ regBits r ++ regBits q ++ 0b0#1 ++ u2 ++ regBits u : BitVec (4 + 3 + 3 + 1 + 2 + 3)) = .andReg r q u ∧
    decodeCore (0b0101#4 ++ regBits r ++ regBits q ++ 0b1#1 ++ i5 : BitVec (4 + 3 + 3 + 1 + 5)) = .andImm r q i5 ∧
    decodeCore (0b0110#4 ++ regBits r ++ regBits q ++ o6 : BitVec (4 + 3 + 3 + 6)) = .ldr r q o6 ∧
    decodeCore (0b0111#4 ++ regBits r ++ regBits q ++ o6 : BitVec (4 + 3 + 3 + 6)) = .str r q o6 ∧
    decodeCore (0b1000#4 ++ u12 : BitVec (4 + 12)) = .rti ∧
    decodeCore (0b1001#4 ++ regBits r ++ regBits q ++ u6 : BitVec (4 + 3 + 3 + 6)) = .not r q ∧
    decodeCore (0b1010#4 ++ regBits r ++ o9 : BitVec (4 + 3 + 9)) = .ldi r o9 ∧
    decodeCore (0b1011#4 ++ regBits r ++ o9 : BitVec (4 + 3 + 9)) = .sti r o9 ∧
    decodeCore (0b1100#4 ++ u3 ++ regBits q ++ u6 : BitVec (4 + 3 + 3 + 6)) = .jmp q ∧
    decodeCore (0b1101#4 ++ u12 : BitVec (4 + 12)) = .res ∧
    decodeCore (0b1110#4 ++ regBits r ++ o9 : BitVec (4 + 3 + 9)) = .lea r o9 ∧
    decodeCore (0b1111#4 ++ u4 ++ v : BitVec (4 + 4 + 8)) = .trap v

/-- Seven words of 95_test_vectors.md 2.6, in the model's spelling: that 0xC1C0 (JMP BaseR 7) is written
`.ret` and 0xF025 (TRAP trapvect8 25) `.halt` is the model's choice (log entry 22). 0x1042 and 0x107E stand
on the source's own scenarios (R47, R48); 0x0E05, 0x7181 and 0xC1C0 rest on D8, D9 (log entries 7, 8), and
0xFFFF, with ones in its unused bits, on D7 (log entry 9). -/
def Obligations.WordsOfTheSpecDecode : Prop :=
  decode 0x1042#16 = .addReg 0 1 2 ∧ decode 0x107E#16 = .addImm 0 1 0b11110#5 ∧
  decode 0x0E05#16 = .br true true true 5#9 ∧ decode 0x7181#16 = .str 0 6 1#6 ∧
  decode 0xC1C0#16 = .ret ∧ decode 0xF025#16 = .halt ∧ decode 0xFFFF#16 = .trap 0xFF#8

/-- R64, R82: RET, GETC, OUT, PUTS, IN, PUTSP and HALT have no semantics of their own, and the decoder
answers R62's variant under whichever name. Rests on the spelling of log entry 22. -/
def Obligations.SecondNamesMeanTheirCoreInstruction : Prop :=
  (∀ (i : Instr) (s : State), exec i s = exec i.core s) ∧ (∀ w : Word, (decode w).core = decodeCore w)

/-- R4. -/
def Obligations.SignExtensionIsTwosComplement : Prop :=
  (∀ (n : Nat) (v : BitVec n), 0 < n → n ≤ 16 →
    (sext v).toNat = (if v.getLsbD (n - 1) then v.toNat + (65536 - 2 ^ n) else v.toNat) ∧
    (sext v).toInt = v.toInt) ∧
  (∀ v : BitVec 16, sext v = v)

/-- R5, R110: the vector is the low byte read as an unsigned number, and a service is chosen by equality with
it, each of the six by its number in the table of R153. That bits 11 to 8 of the word are ignored rests on D7
(log entry 9). -/
def Obligations.TrapVectorIsTheUnsignedLowByte : Prop :=
  (∀ w : Word, 0xF000 ≤ w.toNat → ∃ v : Byte, decodeCore w = .trap v ∧ v.toNat = w.toNat % 256) ∧
  ∀ (v : Byte) (svc : Service), Service.ofVector v = some svc ↔
    v.toNat = match svc with
      | .getc => 0x20 | .out => 0x21 | .puts => 0x22 | .inp => 0x23 | .putsp => 0x24 | .halt => 0x25

/-! ### State and memory -/

/-- R17. -/
def Obligations.FlagsFollowTheSignOfTheValue : Prop :=
  ∀ v : Word, (flagOf v = .zero ↔ v.toNat = 0) ∧ (flagOf v = .negative ↔ 0x8000 ≤ v.toNat) ∧
    (flagOf v = .positive ↔ 0x0001 ≤ v.toNat ∧ v.toNat ≤ 0x7FFF)

/-- R32: the write replaces the whole word and no other, and the very next read, by a load, a fetch or the
trap controller, returns it. That a fetch sees it at once rests on D21 (log entry 23). -/
def Obligations.StoredWordIsReadAndNoOtherChanges : Prop :=
  ∀ (s : State) (a v : Word),
    (s.store a v).load a = v ∧ ((s.store a v).setPc a).fetchWord = v ∧
    MemSameExcept [a] s (s.store a v) ∧ (∀ b, b ≠ a → (s.store a v).load b = s.load b)

/-- R26, R190 (with the spec's decisions D5 for `cond` and D6 for `pc`, log entries 4 and 5; that the input
stream is open and holds no known byte is log entry 17). -/
def Obligations.ResetLeavesAZeroedRunningMachine : Prop :=
  (∀ r, State.reset.reg r = 0x0000#16) ∧ State.reset.pc = 0x0000#16 ∧ State.reset.cond = .zero ∧
  State.reset.status = .running ∧ (∀ a, State.reset.load a = 0x0000#16) ∧ State.reset.output = [] ∧
  State.reset.input = [] ∧ State.reset.inputEnded = false

/-- The canonical form of memory holds at reset (the model's form, log entry 21). -/
def Obligations.ResetMemoryIsCanonical : Prop := State.reset.Inv

/-- Every step keeps the canonical form of memory (the model's form, log entry 21): cells of the 65536 words
only, strictly rising, none that reads as an unlisted one. -/
def Obligations.StepKeepsMemoryCanonical : Prop :=
  ∀ s t : State, s.Inv → step s = .next t → t.Inv

/-- Two memories in canonical form that read alike word by word are equal data (the model's form, log entry
21). -/
def Obligations.CanonicalMemoriesThatReadAlikeAreEqual : Prop :=
  ∀ m m' : Memory, m.wf → m'.wf → (∀ a, m.read a = m'.read a) → m = m'

/-! ### Operate -/

/-- R70, with its encoding line and its frame. That bits 4 and 3 of the word are ignored rests on D7 (log
entry 9). -/
def Obligations.AddRegisterAddsModulo65536 : Prop :=
  ∀ (dr sr1 sr2 : Reg),
    (∀ u2 : BitVec 2, decode (0b0001#4 ++ regBits dr ++ regBits sr1 ++ 0b0#1 ++ u2 ++ regBits sr2 : BitVec (4 + 3 + 3 + 1 + 2 + 3)) = .addReg dr sr1 sr2) ∧
    ∀ s : State, ∃ t, exec (.addReg dr sr1 sr2) s = .next t ∧
      (t.reg dr).toNat = ((s.reg sr1).toNat + (s.reg sr2).toNat) % 65536 ∧ t.cond = flagOf (t.reg dr) ∧
      RegsSameExcept [dr] s t ∧ t.pc = s.pc ∧ t.status = s.status ∧ MemSameExcept [] s t ∧ ConsoleSame s t

/-- R71, with its encoding line and its frame. -/
def Obligations.AddImmediateAddsTheSignedImmediate : Prop :=
  ∀ (dr sr1 : Reg) (imm5 : BitVec 5),
    decode (0b0001#4 ++ regBits dr ++ regBits sr1 ++ 0b1#1 ++ imm5 : BitVec (4 + 3 + 3 + 1 + 5)) = .addImm dr sr1 imm5 ∧
    ∀ s : State, ∃ t, exec (.addImm dr sr1 imm5) s = .next t ∧
      (t.reg dr).toNat = ((s.reg sr1).toNat + imm5.toInt) % 65536 ∧ t.cond = flagOf (t.reg dr) ∧
      RegsSameExcept [dr] s t ∧ t.pc = s.pc ∧ t.status = s.status ∧ MemSameExcept [] s t ∧ ConsoleSame s t

/-- R72, the operation and its frame. -/
def Obligations.AndRegisterIsBitwise : Prop :=
  ∀ (dr sr1 sr2 : Reg) (s : State), ∃ t, exec (.andReg dr sr1 sr2) s = .next t ∧
    (∀ k < 16, (t.reg dr).getLsbD k = ((s.reg sr1).getLsbD k && (s.reg sr2).getLsbD k)) ∧
    t.cond = flagOf (t.reg dr) ∧
    RegsSameExcept [dr] s t ∧ t.pc = s.pc ∧ t.status = s.status ∧ MemSameExcept [] s t ∧ ConsoleSame s t

/-- R73, the operation and its frame: the immediate is sign-extended before the AND, so its bit 4 stands at
every place above. -/
def Obligations.AndImmediateIsBitwiseWithTheSignedImmediate : Prop :=
  ∀ (dr sr1 : Reg) (imm5 : BitVec 5) (s : State), ∃ t, exec (.andImm dr sr1 imm5) s = .next t ∧
    (∀ k < 16, (t.reg dr).getLsbD k = ((s.reg sr1).getLsbD k && imm5.getLsbD (min k 4))) ∧
    t.cond = flagOf (t.reg dr) ∧
    RegsSameExcept [dr] s t ∧ t.pc = s.pc ∧ t.status = s.status ∧ MemSameExcept [] s t ∧ ConsoleSame s t

/-- R74, the operation and its frame. -/
def Obligations.NotInvertsEveryBit : Prop :=
  ∀ (dr sr : Reg) (s : State), ∃ t, exec (.not dr sr) s = .next t ∧
    (∀ k < 16, (t.reg dr).getLsbD k = !(s.reg sr).getLsbD k) ∧
    t.cond = flagOf (t.reg dr) ∧
    RegsSameExcept [dr] s t ∧ t.pc = s.pc ∧ t.status = s.status ∧ MemSameExcept [] s t ∧ ConsoleSame s t

/-! ### Addresses and control transfer -/

/-- R33, R94, R57: the address sums are taken modulo 65536 with the offset read as a signed number, and
`pc` is the one the fetch left. Rests on D4 (log entry 3). -/
def Obligations.AddressesAreSignedSumsModulo65536 : Prop :=
  ∀ (s : State) (o6 : BitVec 6) (o9 : BitVec 9) (o11 : BitVec 11) (base : Reg),
    ((s.pcRel9 o9).toNat : Int) = (s.pc.toNat + o9.toInt) % 65536 ∧
    ((s.pcRel11 o11).toNat : Int) = (s.pc.toNat + o11.toInt) % 65536 ∧
    ((s.baseOffset base o6).toNat : Int) = ((s.reg base).toNat + o6.toInt) % 65536

/-- R80: BR branches if and only if the flags intersect the mask, a zero mask never, an all-ones mask always;
nothing but `pc` changes. The target sum rests on D4 (log entry 3). -/
def Obligations.BranchIsTakenExactlyWhenFlagsMeetMask : Prop :=
  ∀ (n z p : Bool) (off : BitVec 9) (s : State), ∃ t, exec (.br n z p off) s = .next t ∧
    ((n = true ∧ s.cond = .negative ∨ z = true ∧ s.cond = .zero ∨ p = true ∧ s.cond = .positive) →
      (t.pc.toNat : Int) = (s.pc.toNat + off.toInt) % 65536) ∧
    (¬(n = true ∧ s.cond = .negative ∨ z = true ∧ s.cond = .zero ∨ p = true ∧ s.cond = .positive) →
      t.pc = s.pc) ∧
    (n = true → z = true → p = true → (t.pc.toNat : Int) = (s.pc.toNat + off.toInt) % 65536) ∧
    RegsSameExcept [] s t ∧ t.cond = s.cond ∧ t.status = s.status ∧ MemSameExcept [] s t ∧ ConsoleSame s t

/-- R81, R82: JMP, and RET through register 7. -/
def Obligations.JmpAndRetGoToTheRegister : Prop :=
  ∀ (base : Reg) (s : State),
    (∃ t, exec (.jmp base) s = .next t ∧ t.pc = s.reg base ∧
      RegsSameExcept [] s t ∧ t.cond = s.cond ∧ t.status = s.status ∧ MemSameExcept [] s t ∧ ConsoleSame s t) ∧
    (∃ t, exec .ret s = .next t ∧ t.pc = s.reg 7 ∧
      RegsSameExcept [] s t ∧ t.cond = s.cond ∧ t.status = s.status ∧ MemSameExcept [] s t ∧ ConsoleSame s t)

/-- R83: the return address goes into register 7 and the flags are left alone. The target sum rests on D4
(log entry 3). -/
def Obligations.JsrLinksThenJumps : Prop :=
  ∀ (off : BitVec 11) (s : State), ∃ t, exec (.jsr off) s = .next t ∧
    t.reg 7 = s.pc ∧ (t.pc.toNat : Int) = (s.pc.toNat + off.toInt) % 65536 ∧
    RegsSameExcept [7] s t ∧ t.cond = s.cond ∧ t.status = s.status ∧ MemSameExcept [] s t ∧ ConsoleSame s t

/-- R84: register 7 is written first, then BaseR is read, so JSRR through register 7 goes to the return
address (D10, log entry 6). -/
def Obligations.JsrrLinksThenReadsTheBase : Prop :=
  ∀ (base : Reg) (s : State), ∃ t, exec (.jsrr base) s = .next t ∧
    t.reg 7 = s.pc ∧ t.pc = (if base = 7 then s.pc else s.reg base) ∧
    RegsSameExcept [7] s t ∧ t.cond = s.cond ∧ t.status = s.status ∧ MemSameExcept [] s t ∧ ConsoleSame s t

/-! ### Loads -/

/-- R90 and its frame. The address rests on D4 (log entry 3). -/
def Obligations.LdLoadsThePcRelativeWord : Prop :=
  ∀ (dr : Reg) (off : BitVec 9) (s : State), ∃ t, exec (.ld dr off) s = .next t ∧
    (∀ a : Word, (a.toNat : Int) = (s.pc.toNat + off.toInt) % 65536 → t.reg dr = s.load a) ∧
    t.cond = flagOf (t.reg dr) ∧
    RegsSameExcept [dr] s t ∧ t.pc = s.pc ∧ t.status = s.status ∧ MemSameExcept [] s t ∧ ConsoleSame s t

/-- R91 and its frame: the word at the PC-relative address is the address of the data. Rests on D4 (log entry
3). -/
def Obligations.LdiLoadsThroughThePointer : Prop :=
  ∀ (dr : Reg) (off : BitVec 9) (s : State), ∃ t, exec (.ldi dr off) s = .next t ∧
    (∀ a : Word, (a.toNat : Int) = (s.pc.toNat + off.toInt) % 65536 → t.reg dr = s.load (s.load a)) ∧
    t.cond = flagOf (t.reg dr) ∧
    RegsSameExcept [dr] s t ∧ t.pc = s.pc ∧ t.status = s.status ∧ MemSameExcept [] s t ∧ ConsoleSame s t

/-- R92 and its frame: the base is the value before DR is written. Rests on D4 (log entry 3). -/
def Obligations.LdrLoadsFromBasePlusOffset : Prop :=
  ∀ (dr base : Reg) (off : BitVec 6) (s : State), ∃ t, exec (.ldr dr base off) s = .next t ∧
    (∀ a : Word, (a.toNat : Int) = ((s.reg base).toNat + off.toInt) % 65536 → t.reg dr = s.load a) ∧
    t.cond = flagOf (t.reg dr) ∧
    RegsSameExcept [dr] s t ∧ t.pc = s.pc ∧ t.status = s.status ∧ MemSameExcept [] s t ∧ ConsoleSame s t

/-- R93 and its frame: the address itself, and the flags from it. Rests on D4 (log entry 3). -/
def Obligations.LeaGivesTheAddress : Prop :=
  ∀ (dr : Reg) (off : BitVec 9) (s : State), ∃ t, exec (.lea dr off) s = .next t ∧
    ((t.reg dr).toNat : Int) = (s.pc.toNat + off.toInt) % 65536 ∧ t.cond = flagOf (t.reg dr) ∧
    RegsSameExcept [dr] s t ∧ t.pc = s.pc ∧ t.status = s.status ∧ MemSameExcept [] s t ∧ ConsoleSame s t

/-! ### Stores -/

/-- R100 and its frame. The address is `State.pcRel9`, which `AddressesAreSignedSumsModulo65536` describes. -/
def Obligations.StStoresAtThePcRelativeAddress : Prop :=
  ∀ (sr : Reg) (off : BitVec 9) (s : State), ∃ t, exec (.st sr off) s = .next t ∧
    (∀ a : Word, s.pcRel9 off = a → t.load a = s.reg sr ∧ MemSameExcept [a] s t) ∧
    RegsSameExcept [] s t ∧ t.cond = s.cond ∧ t.pc = s.pc ∧ t.status = s.status ∧ ConsoleSame s t

/-- R101 and its frame: the word at the PC-relative address is the address stored to, even where that word
overwrites itself. -/
def Obligations.StiStoresThroughThePointer : Prop :=
  ∀ (sr : Reg) (off : BitVec 9) (s : State), ∃ t, exec (.sti sr off) s = .next t ∧
    (∀ a : Word, s.load (s.pcRel9 off) = a → t.load a = s.reg sr ∧ MemSameExcept [a] s t) ∧
    RegsSameExcept [] s t ∧ t.cond = s.cond ∧ t.pc = s.pc ∧ t.status = s.status ∧ ConsoleSame s t

/-- R102 and its frame. -/
def Obligations.StrStoresAtBasePlusOffset : Prop :=
  ∀ (sr base : Reg) (off : BitVec 6) (s : State), ∃ t, exec (.str sr base off) s = .next t ∧
    (∀ a : Word, s.baseOffset base off = a → t.load a = s.reg sr ∧ MemSameExcept [a] s t) ∧
    RegsSameExcept [] s t ∧ t.cond = s.cond ∧ t.pc = s.pc ∧ t.status = s.status ∧ ConsoleSame s t

/-! ### System instructions and services -/

/-- R111, R112: every word of opcode 8 is RTI and every word of opcode 13 is RES, and they change nothing.
That bits 11 to 0 of the word are ignored rests on D7 (log entry 9). -/
def Obligations.RtiAndResChangeNothing : Prop :=
  ∀ (u12 : BitVec 12) (s : State),
    decode (0b1000#4 ++ u12 : BitVec (4 + 12)) = .rti ∧ decode (0b1101#4 ++ u12 : BitVec (4 + 12)) = .res ∧
    (∀ i ∈ [Instr.rti, Instr.res], ∃ t, exec i s = .next t ∧ CoreSameExcept [] s t ∧ ConsoleSame s t)

/-- R155: one byte into `x[0]`, zero-extended (D11, log entry 10), with the flags left alone (D12, log entry
11). Where no byte waits and the stream is open, it is a byte of which nothing is known (log entry 17). -/
def Obligations.GetcReadsOneByteIntoR0 : Prop :=
  ∀ i ∈ [Instr.getc, Instr.trap 0x20#8], ∀ s : State,
    (∀ c rest, s.input = c :: rest → ∃ t, exec i s = .next t ∧ (t.reg 0).toNat = c.toNat ∧
      CoreSameExcept [0] s t ∧ t.output = s.output ∧ t.input = rest ∧ t.inputEnded = s.inputEnded) ∧
    (s.input = [] → s.inputEnded = false → ∃ t, exec i s = .next t ∧ (t.reg 0).toNat < 256 ∧
      CoreSameExcept [0] s t ∧ t.output = s.output ∧ t.input = [] ∧ t.inputEnded = false)

/-- R156: exactly the low byte of `x[0]` is appended to the output, and nothing else changes. The kept `x[0]`
rests on D25 (log entry 20), the output that always accepts on D20, D24 (log entry 19). -/
def Obligations.OutWritesTheLowByteOfR0 : Prop :=
  ∀ i ∈ [Instr.out, Instr.trap 0x21#8], ∀ s : State, ∃ t b, exec i s = .next t ∧
    t.output = s.output ++ [b] ∧ b.toNat = (s.reg 0).toNat % 256 ∧ CoreSameExcept [] s t ∧
    t.input = s.input ∧ t.inputEnded = s.inputEnded ∧ t.inputDraws = s.inputDraws

/-- R157: the low byte of each word from `x[0]` on, up to the first zero word. The wrapping address rests on
D18, the kept `x[0]` on D25 and the output that always accepts on D20, D24 (log entries 15, 20, 19). -/
def Obligations.PutsWritesTheStringAtR0 : Prop :=
  ∀ i ∈ [Instr.puts, Instr.trap 0x22#8], ∀ (s : State) (n : Nat), n < 65536 →
    (∀ k < n, s.load (s.reg 0 + BitVec.ofNat 16 k) ≠ 0x0000#16) →
    s.load (s.reg 0 + BitVec.ofNat 16 n) = 0x0000#16 →
    ∃ t, exec i s = .next t ∧
      t.output = s.output ++ (List.range n).map (fun k => (s.load (s.reg 0 + BitVec.ofNat 16 k)).extractLsb' 0 8) ∧
      CoreSameExcept [] s t ∧
      t.input = s.input ∧ t.inputEnded = s.inputEnded ∧ t.inputDraws = s.inputDraws

/-- R158: the prompt, then a byte into `x[0]`, then its echo, for every prompt (D15, log entry 18). Rests on
D11, D12 as GETC does (log entries 10, 11), on D20, D24 for the output (log entry 19), and on log entry 17
where no byte waits. -/
def Obligations.InPromptsReadsAndEchoes : Prop :=
  ∀ i ∈ [Instr.inp, Instr.trap 0x23#8], ∀ s : State,
    (∀ c rest, s.input = c :: rest → ∃ t, exec i s = .next t ∧ (t.reg 0).toNat = c.toNat ∧
      CoreSameExcept [0] s t ∧ t.output = s.output ++ Config.inPrompt ++ [c] ∧ t.input = rest ∧
      t.inputEnded = s.inputEnded) ∧
    (s.input = [] → s.inputEnded = false → ∃ t c, exec i s = .next t ∧ (t.reg 0).toNat = BitVec.toNat (w := 8) c ∧
      CoreSameExcept [0] s t ∧ t.output = s.output ++ Config.inPrompt ++ [c] ∧ t.input = [] ∧
      t.inputEnded = false)

/-- R159: both bytes of each word that has no zero byte, low before high; at the first word with a zero byte
its low byte alone, or nothing where the low byte is the zero one (D19, log entry 16). The wrapping address
rests on D18, the kept `x[0]` on D25 and the output that always accepts on D20, D24 (log entries 15, 20,
19). -/
def Obligations.PutspWritesThePackedStringAtR0 : Prop :=
  ∀ i ∈ [Instr.putsp, Instr.trap 0x24#8], ∀ (s : State) (n : Nat), n < 65536 →
    (∀ k < n, (s.load (s.reg 0 + BitVec.ofNat 16 k)).extractLsb' 0 8 ≠ 0x00#8 ∧
      (s.load (s.reg 0 + BitVec.ofNat 16 k)).extractLsb' 8 8 ≠ 0x00#8) →
    ((s.load (s.reg 0 + BitVec.ofNat 16 n)).extractLsb' 0 8 = 0x00#8 ∨
      (s.load (s.reg 0 + BitVec.ofNat 16 n)).extractLsb' 8 8 = 0x00#8) →
    ∃ t, exec i s = .next t ∧
      t.output = s.output ++
        (List.range n).flatMap (fun k => [(s.load (s.reg 0 + BitVec.ofNat 16 k)).extractLsb' 0 8,
          (s.load (s.reg 0 + BitVec.ofNat 16 k)).extractLsb' 8 8]) ++
        (if (s.load (s.reg 0 + BitVec.ofNat 16 n)).extractLsb' 0 8 = 0x00#8 then []
          else [(s.load (s.reg 0 + BitVec.ofNat 16 n)).extractLsb' 0 8]) ∧
      CoreSameExcept [] s t ∧
      t.input = s.input ∧ t.inputEnded = s.inputEnded ∧ t.inputDraws = s.inputDraws

/-- R160: HALTED, nothing else written, and no further step. That HALTED is a terminal value of the status
is D17, and that the step not taken answers the fault `halted` is the model's choice (log entry 14). -/
def Obligations.HaltStopsForGood : Prop :=
  ∀ i ∈ [Instr.halt, Instr.trap 0x25#8], ∀ s : State, ∃ t, exec i s = .next t ∧ t.status = .halted ∧
    RegsSameExcept [] s t ∧ t.cond = s.cond ∧ t.pc = s.pc ∧ MemSameExcept [] s t ∧ ConsoleSame s t ∧
    step t = .fault .halted

/-- R161: any other vector fails the machine for good and writes nothing (that the report is no output is
D16, log entry 13). That FAILED(v) is a terminal value of the status is D17, and that the step not taken
answers the fault `failed v` is the model's choice (log entry 14). -/
def Obligations.UnknownVectorFailsForGood : Prop :=
  ∀ (v : Byte) (s : State), (v.toNat < 0x20 ∨ 0x25 < v.toNat) → ∃ t, exec (.trap v) s = .next t ∧
    t.status = .failed v ∧
    RegsSameExcept [] s t ∧ t.cond = s.cond ∧ t.pc = s.pc ∧ MemSameExcept [] s t ∧ ConsoleSame s t ∧
    step t = .fault (.failed v)

/-- R134, R136 (D14): where the input has ended the service never completes; it holds in a state where IN's
prompt is written and `x[0]` is not. That the model answers this with the fault `inputEnded`, and holds the
input as a list and a flag, is its choice (log entries 12, 17). -/
def Obligations.EndedInputHoldsTheService : Prop :=
  ∀ s : State, s.input = [] → s.inputEnded = true →
    (∀ i ∈ [Instr.getc, Instr.trap 0x20#8], exec i s = .fault (.inputEnded s)) ∧
    (∀ i ∈ [Instr.inp, Instr.trap 0x23#8], ∃ h, exec i s = .fault (.inputEnded h) ∧
      h.output = s.output ++ Config.inPrompt ∧ CoreSameExcept [] s h ∧ h.input = [] ∧ h.inputEnded = true)

/-- R157, R159 (U9): PUTS never ends exactly where no word of memory is zero, and PUTSP exactly where no word
has a zero byte. That a string reaches every word rests on D18 (log entry 15), that a word with a zero low
byte ends PUTSP's whatever its high byte on D19 (log entry 16), and that the model answers the endless service
with the fault `endlessString` is its choice (log entry 24). -/
def Obligations.StringsNeverEndExactlyWithoutTerminator : Prop :=
  ∀ s : State,
    (exec .puts s = .fault .endlessString ↔ ∀ a, s.load a ≠ 0x0000#16) ∧
    (exec .putsp s = .fault .endlessString ↔
      ∀ a, (s.load a).extractLsb' 0 8 ≠ 0x00#8 ∧ (s.load a).extractLsb' 8 8 ≠ 0x00#8)

/-! ### The step -/

/-- R121: a step of the running machine is the meaning of the decoded word at `pc`, run with `pc` one
further. The increment's wrap is D3 (log entry 2). -/
def Obligations.StepRunsTheDecodedInstruction : Prop :=
  ∀ (s : State) (i : Instr), s.status = .running → i.wf = true → decode (s.load s.pc) = i →
    step s = exec i { s with pc := s.pc + 1#16 }

/-- R20, R133: a machine that is not running takes no step, and a running one is never stopped by its status.
Terminal states as state are D17, and the faults a step answers there are the model's choice (log entry 14). -/
def Obligations.StoppedMachineTakesNoStep : Prop :=
  ∀ s : State, (s.status = .halted → step s = .fault .halted) ∧
    (∀ v, s.status = .failed v → step s = .fault (.failed v)) ∧
    (s.status = .running → step s ≠ .fault .halted ∧ ∀ v, step s ≠ .fault (.failed v))

/-- R60, R151: every word that is no TRAP word executes from every running state, and the machine still
runs. Rests on D7, D8 (log entries 7, 9). -/
def Obligations.EveryWordButTrapExecutes : Prop :=
  ∀ s : State, s.status = .running → (s.load s.pc).toNat < 0xF000 →
    ∃ t, step s = .next t ∧ t.status = .running

/-- R150, R151: nothing is refused, and the only ways not to complete are a read of ended input by services
0x20 and 0x23 (R134, D14) and an endless string of services 0x22 and 0x24 (U9). The forms in which the model
says so are its choice: the faults `inputEnded` and `endlessString` (log entries 12, 24), and input as a list
and a flag whose missing byte is free while the stream is open (log entry 17). -/
def Obligations.OnlyConsoleServicesCanHang : Prop :=
  ∀ (i : Instr) (s : State),
    (∀ r, exec i s ≠ .refused r) ∧
    (∀ f, exec i s = .fault f →
      (∃ h, f = .inputEnded h ∧ s.input = [] ∧ s.inputEnded = true ∧
        (i.core = .trap 0x20#8 ∨ i.core = .trap 0x23#8)) ∨
      (f = .endlessString ∧ (i.core = .trap 0x22#8 ∨ i.core = .trap 0x24#8)))

/-- R43, R198: a word stored to the address of the next instruction is the next instruction. Rests on D21
(log entry 23), and past 0xFFFF on D3, D4 (log entries 2, 3). -/
def Obligations.StoredWordIsTheNextInstruction : Prop :=
  ∀ (s t : State) (i : Instr) (sr : Reg), s.status = .running → decode (s.load s.pc) = i →
    ((∃ off, i = .st sr off ∧ s.advance.pcRel9 off = s.pc + 1#16) ∨
      (∃ off, i = .sti sr off ∧ s.load (s.advance.pcRel9 off) = s.pc + 1#16) ∨
      (∃ base off, i = .str sr base off ∧ s.baseOffset base off = s.pc + 1#16)) →
    step s = .next t → step t = exec (decode (s.reg sr)) { t with pc := s.pc + 2#16 }

/-- R191, R60: through `k` zero words the machine does nothing but advance `pc`; so it is from reset, where
every word is zero. Rests on D3, D8 (log entries 2, 7). -/
def Obligations.ZeroWordsOnlyAdvanceThePc : Prop :=
  ∀ (k : Nat) (s : State), s.status = .running →
    (∀ j < k, s.load (s.pc + BitVec.ofNat 16 j) = 0x0000#16) →
    stepTimes k s = .next { s with pc := s.pc + BitVec.ofNat 16 k }

/-! ### Rules about every instruction -/

/-- R11: a general register changes only where the table of R11 says it is written; the services write at
most `x[0]` (D25, log entry 20). -/
def Obligations.OnlyTheListedRegisterIsWritten : Prop :=
  ∀ (i : Instr) (s t : State), exec i s = .next t →
    (∀ r, writtenRegister i ≠ some r → t.reg r = s.reg r) ∧
    (∀ dr, flagSetter i = some dr → writtenRegister i = some dr)

/-- R18: the seven instructions set the flags from the register they have written, and no other instruction
and no service writes them (for the services D12, log entry 11). -/
def Obligations.FlagsAreWrittenByExactlySevenInstructions : Prop :=
  ∀ (i : Instr) (s t : State), exec i s = .next t →
    (∀ dr, flagSetter i = some dr → t.cond = flagOf (t.reg dr)) ∧
    (flagSetter i = none → t.cond = s.cond)

/-- R16, R85: besides the increment, only a taken BR, JMP, JSR and JSRR write `pc`; no service does. -/
def Obligations.OnlyControlTransfersWriteThePc : Prop :=
  ∀ (i : Instr) (s t : State), exec i s = .next t →
    match i.core with
    | .br n z p _ => brTaken n z p s.cond = false → t.pc = s.pc
    | .jmp _ | .jsr _ | .jsrr _ => True
    | _ => t.pc = s.pc

/-- R34: only ST, STI and STR change memory, and only the word at the address they store to. -/
def Obligations.OnlyStoresWriteMemory : Prop :=
  ∀ (i : Instr) (s t : State), exec i s = .next t →
    (∀ a, storeAddress i s = some a → MemSameExcept [a] s t) ∧
    (storeAddress i s = none → MemSameExcept [] s t)

/-- R20: the status is changed only by trap service 0x25 and by a vector outside the table (D17, log entry
14). -/
def Obligations.StatusChangesOnlyByHaltOrUnknownVector : Prop :=
  ∀ (i : Instr) (s t : State), exec i s = .next t → t.status ≠ s.status →
    (i.core = .trap 0x25#8 ∧ t.status = .halted) ∨
    ∃ v, i.core = .trap v ∧ (v.toNat < 0x20 ∨ 0x25 < v.toNat) ∧ t.status = .failed v

/-- R25: every step appends to the output or leaves it, and only services 0x21 to 0x24 write it; input is
taken only by services 0x20 and 0x23, in order, one byte at a time. The list, the flag and the counter that
hold the input are the model's choice (log entry 17). -/
def Obligations.ConsoleStreamsOnlyMoveForward : Prop :=
  ∀ (i : Instr) (s t : State), exec i s = .next t →
    (∃ bs, t.output = s.output ++ bs ∧
      (bs ≠ [] → ∃ v, i.core = .trap v ∧ 0x21 ≤ v.toNat ∧ v.toNat ≤ 0x24)) ∧
    (t.input = s.input ∨ ∃ c, s.input = c :: t.input) ∧ t.inputEnded = s.inputEnded ∧
    (t.input ≠ s.input ∨ t.inputDraws ≠ s.inputDraws → i.core = .trap 0x20#8 ∨ i.core = .trap 0x23#8)

/-- R19: only BR reads the flags: any other instruction, its service included, does the same from any flags.
Which overwrite them and which leave them is R18, and that no service writes them is D12 (log entry 11). -/
def Obligations.OnlyBranchReadsTheFlags : Prop :=
  ∀ (i : Instr) (s : State) (c : Cond), (∀ n z p off, i ≠ .br n z p off) →
    match exec i s with
    | .next t => exec i { s with cond := c } = .next { t with cond := if flagSetter i = none then c else t.cond }
    | .fault (.inputEnded h) => exec i { s with cond := c } = .fault (.inputEnded { h with cond := c })
    | .fault f => exec i { s with cond := c } = .fault f
    | .refused r => exec i { s with cond := c } = .refused r

/-- R34: an instruction and its service depend on no word of memory but those the table says are read, and
leave no word changed but the one the table says is written, with the value it says. Which words PUTS and
PUTSP read rests on D18, D19 (log entries 15, 16), the other addresses on D4 (log entry 3), and the forms of
the two faults on log entries 12, 24. -/
def Obligations.InstructionsReadAndWriteOnlyTheListedWords : Prop :=
  ∀ (i : Instr) (s : State) (m : Memory),
    (∀ a, Access.read a ∈ dataAccesses i s → m.read a = s.load a) →
    match exec i s with
    | .next t => ∃ t', exec i { s with mem := m } = .next t' ∧ t' = { t with mem := t'.mem } ∧
        (∀ a v, Access.write a v ∈ dataAccesses i s → t.load a = v ∧ t'.load a = v) ∧
        (∀ a, (∀ v, Access.write a v ∉ dataAccesses i s) → t.load a = s.load a ∧ t'.load a = m.read a)
    | .fault (.inputEnded h) => exec i { s with mem := m } = .fault (.inputEnded { h with mem := m })
    | .fault f => exec i { s with mem := m } = .fault f
    | .refused r => exec i { s with mem := m } = .refused r

/-! ### The loader -/

/-- R194, R196: an image in memory stands at consecutive addresses from its origin, every other word is as
before, and nothing but memory changes; an object file is its origin and its words, high byte first. An
image past 0xFFFF is not loaded (D13, log entry 25). -/
def Obligations.LoadedImageStandsFromItsOrigin : Prop :=
  (∀ (s : State) (origin : Word) (ws : List Word), origin.toNat + ws.length ≤ 65536 →
    ∃ t, s.loadImage origin ws = some t ∧ t = { s with mem := t.mem } ∧
      (∀ (k : Nat) (h : k < ws.length), t.load (origin + BitVec.ofNat 16 k) = ws[k]) ∧
      (∀ a : Word, (a.toNat < origin.toNat ∨ origin.toNat + ws.length ≤ a.toNat) → t.load a = s.load a)) ∧
  (∀ (s : State) (origin : Word) (ws : List Word),
    s.loadObject ((origin :: ws).flatMap fun w => [w.extractLsb' 8 8, w.extractLsb' 0 8]) = s.loadImage origin ws) ∧
  (∀ (s : State) (file : List Byte), file.length % 2 = 1 → s.loadObject file = none)
end

