-- ==== Sys2Proof/Laws/Decode.lean ====
section
/-! SUPPORT. The fields of a word as numbers, the word of appended fields as a number, and the small tables of
the decoder read in both directions. -/

namespace Sys2Proof

/-! ### Fields as numbers -/

theorem toNat_opcodeField (w : Word) : (opcodeField w).toNat = w.toNat / 4096 % 16 := by
  simp [opcodeField, Nat.shiftRight_eq_div_pow]
theorem val_reg11to9 (w : Word) : (reg11to9 w).val = w.toNat / 512 % 8 := by
  show (w.extractLsb' 9 3).toNat = _
  simp [Nat.shiftRight_eq_div_pow]
theorem val_reg8to6 (w : Word) : (reg8to6 w).val = w.toNat / 64 % 8 := by
  show (w.extractLsb' 6 3).toNat = _
  simp [Nat.shiftRight_eq_div_pow]
theorem val_reg2to0 (w : Word) : (reg2to0 w).val = w.toNat % 8 := by
  show (w.extractLsb' 0 3).toNat = _
  simp
theorem toNat_imm5Field (w : Word) : (imm5Field w).toNat = w.toNat % 32 := by simp [imm5Field]
theorem toNat_offset6Field (w : Word) : (offset6Field w).toNat = w.toNat % 64 := by simp [offset6Field]
theorem toNat_pcOffset9Field (w : Word) : (pcOffset9Field w).toNat = w.toNat % 512 := by simp [pcOffset9Field]
theorem toNat_pcOffset11Field (w : Word) : (pcOffset11Field w).toNat = w.toNat % 2048 := by simp [pcOffset11Field]
theorem toNat_trapvect8Field (w : Word) : (trapvect8Field w).toNat = w.toNat % 256 := by simp [trapvect8Field]

/-- One bit of a word as a number. -/
theorem getLsbD_eq_decide (w : Word) (k : Nat) : w.getLsbD k = decide (w.toNat / 2 ^ k % 2 = 1) := by
  rw [BitVec.getLsbD, Nat.testBit_eq_decide_div_mod_eq]

/-! ### Appended fields as a number -/

theorem toNat_append {n m : Nat} (x : BitVec n) (y : BitVec m) :
    (x ++ y).toNat = x.toNat * 2 ^ m + y.toNat := by
  rw [BitVec.toNat_append, ← Nat.shiftLeft_add_eq_or_of_lt y.isLt, Nat.shiftLeft_eq]

theorem toNat_regBits (r : Reg) : (regBits r).toNat = r.val := rfl
theorem toNat_flagBit (b : Bool) : (flagBit b).toNat = b.toNat := by cases b <;> rfl

/-! ### Tables -/

/-- The opcode map read forth and back (R56). -/
theorem ofBits_bits (o : Opcode) : Opcode.ofBits o.bits = o := by cases o <;> rfl

theorem bits_ofBits : ∀ b : BitVec 4, (Opcode.ofBits b).bits = b := by decide

/-- Every instruction is a name of its core. -/
theorem core_core (i : Instr) : i.core.core = i.core := by cases i <;> rfl

/-- A core word is written by its own name, and the name expands to it again. -/
theorem core_named (i : Instr) : i.named.core = i.core := by
  cases i with
  | jmp base =>
    by_cases h : base = Reg.link
    · subst h; rfl
    · simp [Instr.named, h]
  | trap v =>
    simp only [Instr.named, Service.ofVector]
    by_cases h0 : v = 0x20#8
    · subst h0; rfl
    by_cases h1 : v = 0x21#8
    · subst h1; rfl
    by_cases h2 : v = 0x22#8
    · subst h2; rfl
    by_cases h3 : v = 0x23#8
    · subst h3; rfl
    by_cases h4 : v = 0x24#8
    · subst h4; rfl
    by_cases h5 : v = 0x25#8
    · subst h5; rfl
    simp only [h0, h1, h2, h3, h4, h5, if_false]
  | _ => rfl

end Sys2Proof
end

