-- ==== Sys2Proof/Laws/State.lean ====
section
/-! SUPPORT. One lemma for each field of the state under each of its updates, true by unfolding, and the
reads of a register and of a word under each update. No later proof unfolds an update of the state. -/

namespace Sys2Proof.Machine

/-! ### setReg -/

@[simp] theorem State.setReg_regs (s : State) (r : Reg) (v : Word) : (s.setReg r v).regs = s.regs.set r v := rfl
@[simp] theorem State.setReg_pc (s : State) (r : Reg) (v : Word) : (s.setReg r v).pc = s.pc := rfl
@[simp] theorem State.setReg_cond (s : State) (r : Reg) (v : Word) : (s.setReg r v).cond = s.cond := rfl
@[simp] theorem State.setReg_status (s : State) (r : Reg) (v : Word) : (s.setReg r v).status = s.status := rfl
@[simp] theorem State.setReg_mem (s : State) (r : Reg) (v : Word) : (s.setReg r v).mem = s.mem := rfl
@[simp] theorem State.setReg_output (s : State) (r : Reg) (v : Word) : (s.setReg r v).output = s.output := rfl
@[simp] theorem State.setReg_input (s : State) (r : Reg) (v : Word) : (s.setReg r v).input = s.input := rfl
@[simp] theorem State.setReg_inputEnded (s : State) (r : Reg) (v : Word) : (s.setReg r v).inputEnded = s.inputEnded := rfl
@[simp] theorem State.setReg_inputDraws (s : State) (r : Reg) (v : Word) : (s.setReg r v).inputDraws = s.inputDraws := rfl

/-! ### setPc -/

@[simp] theorem State.setPc_regs (s : State) (a : Word) : (s.setPc a).regs = s.regs := rfl
@[simp] theorem State.setPc_pc (s : State) (a : Word) : (s.setPc a).pc = a := rfl
@[simp] theorem State.setPc_cond (s : State) (a : Word) : (s.setPc a).cond = s.cond := rfl
@[simp] theorem State.setPc_status (s : State) (a : Word) : (s.setPc a).status = s.status := rfl
@[simp] theorem State.setPc_mem (s : State) (a : Word) : (s.setPc a).mem = s.mem := rfl
@[simp] theorem State.setPc_output (s : State) (a : Word) : (s.setPc a).output = s.output := rfl
@[simp] theorem State.setPc_input (s : State) (a : Word) : (s.setPc a).input = s.input := rfl
@[simp] theorem State.setPc_inputEnded (s : State) (a : Word) : (s.setPc a).inputEnded = s.inputEnded := rfl
@[simp] theorem State.setPc_inputDraws (s : State) (a : Word) : (s.setPc a).inputDraws = s.inputDraws := rfl

/-! ### advance -/

@[simp] theorem State.advance_regs (s : State) : s.advance.regs = s.regs := rfl
@[simp] theorem State.advance_pc (s : State) : s.advance.pc = s.pc + 1#16 := rfl
@[simp] theorem State.advance_cond (s : State) : s.advance.cond = s.cond := rfl
@[simp] theorem State.advance_status (s : State) : s.advance.status = s.status := rfl
@[simp] theorem State.advance_mem (s : State) : s.advance.mem = s.mem := rfl
@[simp] theorem State.advance_output (s : State) : s.advance.output = s.output := rfl
@[simp] theorem State.advance_input (s : State) : s.advance.input = s.input := rfl
@[simp] theorem State.advance_inputEnded (s : State) : s.advance.inputEnded = s.inputEnded := rfl
@[simp] theorem State.advance_inputDraws (s : State) : s.advance.inputDraws = s.inputDraws := rfl

/-! ### store -/

@[simp] theorem State.store_regs (s : State) (a v : Word) : (s.store a v).regs = s.regs := rfl
@[simp] theorem State.store_pc (s : State) (a v : Word) : (s.store a v).pc = s.pc := rfl
@[simp] theorem State.store_cond (s : State) (a v : Word) : (s.store a v).cond = s.cond := rfl
@[simp] theorem State.store_status (s : State) (a v : Word) : (s.store a v).status = s.status := rfl
@[simp] theorem State.store_mem (s : State) (a v : Word) : (s.store a v).mem = s.mem.write a v := rfl
@[simp] theorem State.store_output (s : State) (a v : Word) : (s.store a v).output = s.output := rfl
@[simp] theorem State.store_input (s : State) (a v : Word) : (s.store a v).input = s.input := rfl
@[simp] theorem State.store_inputEnded (s : State) (a v : Word) : (s.store a v).inputEnded = s.inputEnded := rfl
@[simp] theorem State.store_inputDraws (s : State) (a v : Word) : (s.store a v).inputDraws = s.inputDraws := rfl

/-! ### emit -/

@[simp] theorem State.emit_regs (s : State) (bs : List Byte) : (s.emit bs).regs = s.regs := rfl
@[simp] theorem State.emit_pc (s : State) (bs : List Byte) : (s.emit bs).pc = s.pc := rfl
@[simp] theorem State.emit_cond (s : State) (bs : List Byte) : (s.emit bs).cond = s.cond := rfl
@[simp] theorem State.emit_status (s : State) (bs : List Byte) : (s.emit bs).status = s.status := rfl
@[simp] theorem State.emit_mem (s : State) (bs : List Byte) : (s.emit bs).mem = s.mem := rfl
@[simp] theorem State.emit_output (s : State) (bs : List Byte) : (s.emit bs).output = s.output ++ bs := rfl
@[simp] theorem State.emit_input (s : State) (bs : List Byte) : (s.emit bs).input = s.input := rfl
@[simp] theorem State.emit_inputEnded (s : State) (bs : List Byte) : (s.emit bs).inputEnded = s.inputEnded := rfl
@[simp] theorem State.emit_inputDraws (s : State) (bs : List Byte) : (s.emit bs).inputDraws = s.inputDraws := rfl

/-! ### setcc -/

@[simp] theorem State.setcc_regs (s : State) (i : Reg) : (s.setcc i).regs = s.regs := rfl
@[simp] theorem State.setcc_pc (s : State) (i : Reg) : (s.setcc i).pc = s.pc := rfl
@[simp] theorem State.setcc_cond (s : State) (i : Reg) : (s.setcc i).cond = flagOf (s.reg i) := rfl
@[simp] theorem State.setcc_status (s : State) (i : Reg) : (s.setcc i).status = s.status := rfl
@[simp] theorem State.setcc_mem (s : State) (i : Reg) : (s.setcc i).mem = s.mem := rfl
@[simp] theorem State.setcc_output (s : State) (i : Reg) : (s.setcc i).output = s.output := rfl
@[simp] theorem State.setcc_input (s : State) (i : Reg) : (s.setcc i).input = s.input := rfl
@[simp] theorem State.setcc_inputEnded (s : State) (i : Reg) : (s.setcc i).inputEnded = s.inputEnded := rfl
@[simp] theorem State.setcc_inputDraws (s : State) (i : Reg) : (s.setcc i).inputDraws = s.inputDraws := rfl

/-! ### writeBack -/

@[simp] theorem State.writeBack_regs (s : State) (dr : Reg) (v : Word) : (s.writeBack dr v).regs = s.regs.set dr v := rfl
@[simp] theorem State.writeBack_pc (s : State) (dr : Reg) (v : Word) : (s.writeBack dr v).pc = s.pc := rfl
@[simp] theorem State.writeBack_cond (s : State) (dr : Reg) (v : Word) : (s.writeBack dr v).cond = flagOf ((s.setReg dr v).reg dr) := rfl
@[simp] theorem State.writeBack_status (s : State) (dr : Reg) (v : Word) : (s.writeBack dr v).status = s.status := rfl
@[simp] theorem State.writeBack_mem (s : State) (dr : Reg) (v : Word) : (s.writeBack dr v).mem = s.mem := rfl
@[simp] theorem State.writeBack_output (s : State) (dr : Reg) (v : Word) : (s.writeBack dr v).output = s.output := rfl
@[simp] theorem State.writeBack_input (s : State) (dr : Reg) (v : Word) : (s.writeBack dr v).input = s.input := rfl
@[simp] theorem State.writeBack_inputEnded (s : State) (dr : Reg) (v : Word) : (s.writeBack dr v).inputEnded = s.inputEnded := rfl
@[simp] theorem State.writeBack_inputDraws (s : State) (dr : Reg) (v : Word) : (s.writeBack dr v).inputDraws = s.inputDraws := rfl

/-! ### Register reads under the updates -/

@[simp] theorem State.reg_setReg_self (s : State) (r : Reg) (v : Word) : (s.setReg r v).reg r = v := by
  simp [State.reg, State.setReg]

theorem State.reg_setReg_ne (s : State) (r q : Reg) (v : Word) (h : q ≠ r) : (s.setReg r v).reg q = s.reg q := by
  have : r.val ≠ q.val := fun e => h (Fin.ext e.symm)
  simp [State.reg, State.setReg, Vector.getElem_set_ne, this]

theorem State.reg_setReg (s : State) (r q : Reg) (v : Word) :
    (s.setReg r v).reg q = if q = r then v else s.reg q := by
  by_cases h : q = r
  · subst h; simp
  · simp [h, s.reg_setReg_ne r q v h]

theorem State.reg_setPc (s : State) (a : Word) (q : Reg) : (s.setPc a).reg q = s.reg q := rfl
theorem State.reg_advance (s : State) (q : Reg) : s.advance.reg q = s.reg q := rfl
theorem State.reg_store (s : State) (a v : Word) (q : Reg) : (s.store a v).reg q = s.reg q := rfl
theorem State.reg_emit (s : State) (bs : List Byte) (q : Reg) : (s.emit bs).reg q = s.reg q := rfl
theorem State.reg_setcc (s : State) (i q : Reg) : (s.setcc i).reg q = s.reg q := rfl

/-- Every register after a write-back. -/
theorem State.reg_writeBack (s : State) (dr q : Reg) (v : Word) :
    (s.writeBack dr v).reg q = if q = dr then v else s.reg q :=
  s.reg_setReg dr q v

/-- The flags after a write-back are those of the value written (R128: read back or taken from the write
port, the same). -/
theorem State.cond_writeBack (s : State) (dr : Reg) (v : Word) : (s.writeBack dr v).cond = flagOf v := by
  rw [State.writeBack_cond, State.reg_setReg_self]

/-! ### Word reads under the updates that leave memory alone -/

theorem State.load_setReg (s : State) (r : Reg) (v a : Word) : (s.setReg r v).load a = s.load a := rfl
theorem State.load_setPc (s : State) (p a : Word) : (s.setPc p).load a = s.load a := rfl
theorem State.load_advance (s : State) (a : Word) : s.advance.load a = s.load a := rfl
theorem State.load_emit (s : State) (bs : List Byte) (a : Word) : (s.emit bs).load a = s.load a := rfl
theorem State.load_writeBack (s : State) (dr : Reg) (v a : Word) : (s.writeBack dr v).load a = s.load a := rfl

end Sys2Proof.Machine
end

