-- ==== Sys2Proof/Laws/Memory.lean ====
section
/-! SUPPORT. Memory: what a write does to every cell and to every word (20_memory.md R31, R32), and that
every memory operation keeps the canonical form. -/

namespace Sys2Proof.Machine

/-! ### One byte cell -/

theorem byteAt_insertCell (c : Host.Cell) (m : Memory) (k : Nat) (h : ∀ d ∈ m, d.1 ≠ c.1) :
    (Memory.insertCell c m).byteAt k = if k = c.1 then c.2 else m.byteAt k := by
  induction m with
  | nil => simp [Memory.insertCell, Memory.byteAt, eq_comm]
  | cons d m ih =>
    have hd : d.1 ≠ c.1 := h d (by simp)
    have ih := ih fun e he => h e (by simp [he])
    rw [Memory.insertCell]
    split
    · simp only [Memory.byteAt, eq_comm (a := c.1)]
    · simp only [Memory.byteAt, ih]
      by_cases hk : k = c.1
      · subst hk; simp [hd]
      · simp [hk]

theorem byteAt_filter (m : Memory) (j k : Nat) :
    Memory.byteAt (m.filter fun c => c.1 != j) k = if k = j then Memory.unlisted else m.byteAt k := by
  induction m with
  | nil => simp [Memory.byteAt]
  | cons d m ih =>
    by_cases hd : d.1 = j
    · by_cases hk : k = j
      · subst hk; simpa [hd] using ih
      · have : j ≠ k := fun e => hk e.symm
        simp [hd, hk, ih, Memory.byteAt, this]
    · by_cases hk : d.1 = k
      · subst hk; simp [hd, Memory.byteAt]
      · simp [hd, hk, ih, Memory.byteAt]

/-- The one law of a byte write: that cell holds the byte, and no other cell changes. -/
theorem byteAt_setByte (m : Memory) (j k : Nat) (b : Byte) :
    (m.setByte j b).byteAt k = if k = j then b else m.byteAt k := by
  by_cases hb : b = Memory.unlisted
  · simp [Memory.setByte, hb, byteAt_filter]
  · have hne : ∀ d ∈ m.filter fun c => c.1 != j, d.1 ≠ j := by simp
    have := byteAt_insertCell (j, b) (m.filter fun c => c.1 != j) k hne
    rw [Memory.setByte, if_neg hb, this, byteAt_filter]
    by_cases hk : k = j <;> simp [hk]

/-! ### One word -/

theorem wordOfBytes_split (v : Word) : wordOfBytes (v.extractLsb' 8 8) (v.extractLsb' 0 8) = v := by
  apply BitVec.eq_of_getLsbD_eq
  intro i hi
  simp only [wordOfBytes, BitVec.getLsbD_append, BitVec.getLsbD_extractLsb']
  by_cases h : i < 8
  · simp [h]
  · have : i - 8 < 8 := by omega
    have e : 8 + (i - 8) = i := by omega
    simp [h, this, e]

theorem cells_injective {a b : Word} (h : a ≠ b) :
    Memory.highCell a ≠ Memory.highCell b ∧ Memory.lowCell a ≠ Memory.lowCell b := by
  have : a.toNat ≠ b.toNat := fun e => h (BitVec.eq_of_toNat_eq e)
  simp only [Memory.highCell, Memory.lowCell]
  omega

theorem highCell_ne_lowCell (a b : Word) : Memory.highCell a ≠ Memory.lowCell b := by
  simp only [Memory.highCell, Memory.lowCell]
  omega

/-- Every byte cell after a word write. -/
theorem byteAt_write (m : Memory) (a v : Word) (k : Nat) :
    (m.write a v).byteAt k =
      if k = Memory.lowCell a then v.extractLsb' 0 8
      else if k = Memory.highCell a then v.extractLsb' 8 8 else m.byteAt k := by
  simp only [Memory.write, byteAt_setByte]

/-- R32: the word written is the word read. -/
theorem read_write_self (m : Memory) (a v : Word) : (m.write a v).read a = v := by
  have h := highCell_ne_lowCell a a
  simp only [Memory.read, byteAt_write, if_true, h, if_false]
  exact wordOfBytes_split v

/-- R32: no other word changes. -/
theorem read_write_ne (m : Memory) {a b : Word} (v : Word) (h : b ≠ a) : (m.write a v).read b = m.read b := by
  have hc := cells_injective h
  have h1 := highCell_ne_lowCell b a
  have h2 := (highCell_ne_lowCell a b).symm
  simp only [Memory.read, byteAt_write, hc.1, hc.2, h1, h2, if_false]

theorem read_write (m : Memory) (a b v : Word) : (m.write a v).read b = if b = a then v else m.read b := by
  by_cases h : b = a
  · subst h; simp [read_write_self]
  · simp [h, read_write_ne m v h]

theorem load_store (s : State) (a b v : Word) : (s.store a v).load b = if b = a then v else s.load b :=
  read_write s.mem a b v

/-- A memory with nothing listed reads as zero everywhere (R30, R31). -/
theorem read_nil (a : Word) : Memory.read [] a = 0x0000#16 := by
  show wordOfBytes Memory.unlisted Memory.unlisted = _
  decide

/-! ### The canonical form -/

theorem wf_nil : Memory.wf [] := by simp [Memory.wf]

theorem mem_insertCell {c d : Host.Cell} {m : Memory} : d ∈ Memory.insertCell c m ↔ d = c ∨ d ∈ m := by
  induction m with
  | nil => simp [Memory.insertCell]
  | cons e m ih =>
    rw [Memory.insertCell]
    split
    · simp
    · simp only [List.mem_cons, ih]
      tauto

theorem pairwise_insertCell {c : Host.Cell} {m : Memory} (h : m.Pairwise fun d e => d.1 < e.1)
    (hc : ∀ d ∈ m, d.1 ≠ c.1) : (Memory.insertCell c m).Pairwise fun d e => d.1 < e.1 := by
  induction m with
  | nil => simp [Memory.insertCell]
  | cons e m ih =>
    obtain ⟨he, hm⟩ := List.pairwise_cons.mp h
    rw [Memory.insertCell]
    split
    · rename_i hlt
      refine List.pairwise_cons.mpr ⟨fun d hd => ?_, h⟩
      rcases List.mem_cons.mp hd with rfl | hd
      · exact hlt
      · exact hlt.trans (he d hd)
    · rename_i hge
      refine List.pairwise_cons.mpr ⟨fun d hd => ?_, ih hm fun d hd => hc d (by simp [hd])⟩
      rcases mem_insertCell.mp hd with rfl | hd
      · have := hc e (by simp); omega
      · exact he d hd

/-- A byte write keeps the canonical form. -/
theorem wf_setByte {m : Memory} (h : m.wf) {k : Nat} (hk : k < 2 * Config.memoryWords) (b : Byte) :
    (m.setByte k b).wf := by
  have hp : (m.filter fun c => c.1 != k).Pairwise fun d e => d.1 < e.1 := h.1.sublist List.filter_sublist
  have hm : ∀ c ∈ m.filter fun c => c.1 != k, c.1 < 2 * Config.memoryWords ∧ c.2 ≠ Memory.unlisted :=
    fun c hc => h.2 c (List.mem_filter.mp hc).1
  rw [Memory.setByte]
  split
  · exact ⟨hp, hm⟩
  · rename_i hb
    refine ⟨pairwise_insertCell hp (by simp), fun c hc => ?_⟩
    rcases mem_insertCell.mp hc with rfl | hc
    · exact ⟨hk, hb⟩
    · exact hm c hc

/-- A word write keeps the canonical form: the one operation by which the machine changes memory. -/
theorem wf_write {m : Memory} (h : m.wf) (a v : Word) : (m.write a v).wf := by
  have ha := a.isLt
  refine wf_setByte (wf_setByte h ?_ _) ?_ _ <;>
    simp only [Memory.highCell, Memory.lowCell, Config.memoryWords] <;> omega

/-- The loader keeps the canonical form. -/
theorem wf_writeWords {m : Memory} (h : m.wf) (a : Word) (ws : List Word) : (m.writeWords a ws).wf := by
  induction ws generalizing m a with
  | nil => exact h
  | cons w ws ih => exact ih (wf_write h a w) (a + 1#16)

theorem reset_mem_wf : State.reset.mem.wf := wf_nil

end Sys2Proof.Machine
end

