-- ==== Sys2Proof/Laws/Ops.lean ====
section
/-! SUPPORT. The shared operations: what each can answer, said once. -/

namespace Sys2Proof.Machine

/-! ### Flags -/

/-- The three values of `flag_of` do not overlap and leave nothing out (R17). -/
theorem flagOf_cases (v : Word) :
    (v = 0x0000#16 ∧ flagOf v = .zero) ∨ (v ≠ 0x0000#16 ∧ v.getLsbD 15 = true ∧ flagOf v = .negative) ∨
      (v ≠ 0x0000#16 ∧ v.getLsbD 15 = false ∧ flagOf v = .positive) := by
  rw [flagOf]
  by_cases h0 : v = 0x0000#16
  · simp [h0]
  · cases h15 : v.getLsbD 15 <;> simp [h0]

/-- A zero mask never branches (R80). -/
theorem brTaken_none (c : Cond) : brTaken false false false c = false := by cases c <;> rfl

/-- An all-ones mask always branches (R80). -/
theorem brTaken_all (c : Cond) : brTaken true true true c = true := by cases c <;> rfl

/-! ### The console -/

/-- Everything `consoleIn` can answer. -/
theorem consoleIn_cases (s : State) :
    (∃ b rest, s.input = b :: rest ∧ s.consoleIn = some (b, { s with input := rest })) ∨
      (s.input = [] ∧ s.inputEnded = false ∧
        s.consoleIn = some (Config.hostByte s.inputDraws, { s with inputDraws := s.inputDraws + 1 })) ∨
      (s.input = [] ∧ s.inputEnded = true ∧ s.consoleIn = none) := by
  cases hi : s.input with
  | cons b rest => exact .inl ⟨b, rest, rfl, by simp [State.consoleIn, hi]⟩
  | nil =>
    cases he : s.inputEnded with
    | false => exact .inr (.inl ⟨rfl, rfl, by simp [State.consoleIn, hi, he]⟩)
    | true => exact .inr (.inr ⟨rfl, rfl, by simp [State.consoleIn, hi, he]⟩)

/-- Taking a byte changes the input stream and nothing else. -/
theorem consoleIn_frame {s s' : State} {c : Byte} (h : s.consoleIn = some (c, s')) :
    s' = { s with input := s'.input, inputDraws := s'.inputDraws } := by
  rcases consoleIn_cases s with ⟨b, rest, -, e⟩ | ⟨-, -, e⟩ | ⟨-, -, e⟩ <;> rw [e] at h
  · cases h; rfl
  · cases h; rfl
  · cases h

/-! ### The services -/

/-- Everything a trap service can answer: a next state that differs from `s` in `x[0]`, the run status and
the console alone, or one of the two ways it never ends. -/
theorem service_cases (v : Byte) (s : State) :
    (∃ t, service v s = .next t ∧ t = { s with regs := t.regs, status := t.status, output := t.output, input := t.input, inputDraws := t.inputDraws } ∧
        ∀ r, r ≠ 0 → t.reg r = s.reg r) ∨
      (∃ h, service v s = .fault (.inputEnded h) ∧ h = { s with output := h.output }) ∨
      service v s = .fault .endlessString := by
  rw [service]
  cases Service.ofVector v with
  | none => exact .inl ⟨_, rfl, rfl, fun _ _ => rfl⟩
  | some svc =>
    cases svc with
    | getc =>
      simp only [serviceGetc]
      cases hc : s.consoleIn with
      | none => exact .inr (.inl ⟨s, rfl, rfl⟩)
      | some p =>
        obtain ⟨c, s'⟩ := p
        have hf := consoleIn_frame hc
        refine .inl ⟨_, rfl, ?_, fun r hr => ?_⟩
        · rw [hf]; rfl
        · rw [State.reg_setReg_ne _ _ _ _ hr, hf]; rfl
    | out => exact .inl ⟨_, rfl, rfl, fun _ _ => rfl⟩
    | puts =>
      simp only [servicePuts]
      cases putsBytes s.mem Config.memoryWords (s.reg 0) with
      | none => exact .inr (.inr rfl)
      | some bs => exact .inl ⟨_, rfl, rfl, fun _ _ => rfl⟩
    | inp =>
      simp only [serviceIn]
      cases hc : (s.emit Config.inPrompt).consoleIn with
      | none => exact .inr (.inl ⟨_, rfl, rfl⟩)
      | some p =>
        obtain ⟨c, s'⟩ := p
        have hf := consoleIn_frame hc
        refine .inl ⟨_, rfl, ?_, fun r hr => ?_⟩
        · rw [hf]; rfl
        · rw [State.reg_emit, State.reg_setReg_ne _ _ _ _ hr, hf]; rfl
    | putsp =>
      simp only [servicePutsp]
      cases putspBytes s.mem Config.memoryWords (s.reg 0) with
      | none => exact .inr (.inr rfl)
      | some bs => exact .inl ⟨_, rfl, rfl, fun _ _ => rfl⟩
    | halt => exact .inl ⟨_, rfl, rfl, fun _ _ => rfl⟩

/-- No service touches memory, `pc` or the flags (R154). -/
theorem service_next_frame {v : Byte} {s t : State} (h : service v s = .next t) :
    t.mem = s.mem ∧ t.pc = s.pc ∧ t.cond = s.cond ∧ ∀ r, r ≠ 0 → t.reg r = s.reg r := by
  rcases service_cases v s with ⟨t', e, ht, hr⟩ | ⟨_, e, -⟩ | e <;> rw [e] at h
  · cases h
    exact ⟨by rw [ht], by rw [ht], by rw [ht], hr⟩
  · cases h
  · cases h

/-- The vector table, read in both directions (R153). -/
theorem ofVector_eq_some {v : Byte} {svc : Service} : Service.ofVector v = some svc ↔ v = svc.vector := by
  constructor
  · intro h
    simp only [Service.ofVector] at h
    split at h
    · cases h; assumption
    split at h
    · cases h; assumption
    split at h
    · cases h; assumption
    split at h
    · cases h; assumption
    split at h
    · cases h; assumption
    split at h
    · cases h; assumption
    · cases h
  · rintro rfl; cases svc <;> rfl

/-- A service is performed for its vector. -/
theorem service_vector (svc : Service) (s : State) :
    service svc.vector s =
      match svc with
      | .getc => serviceGetc s
      | .out => serviceOut s
      | .puts => servicePuts s
      | .inp => serviceIn s
      | .putsp => servicePutsp s
      | .halt => serviceHalt s := by
  cases svc <;> rfl

/-! ### Strings in memory -/

/-- Stepping an address: the word `k` past the next one is the word `k + 1` past this one. -/
theorem word_succ_add (a : Word) (k : Nat) : a + 1#16 + BitVec.ofNat 16 k = a + BitVec.ofNat 16 (k + 1) := by
  apply BitVec.eq_of_toNat_eq
  simp only [BitVec.toNat_add, BitVec.toNat_ofNat]
  omega

/-- PUTS over a string of `n` non-zero words before a zero word (R157). -/
theorem putsBytes_of_terminator (m : Memory) (n fuel : Nat) (a : Word) (hn : n < fuel)
    (hw : ∀ k < n, m.read (a + BitVec.ofNat 16 k) ≠ 0x0000#16) (h0 : m.read (a + BitVec.ofNat 16 n) = 0x0000#16) :
    putsBytes m fuel a = some ((List.range n).map fun k => lowByte (m.read (a + BitVec.ofNat 16 k))) := by
  induction n generalizing fuel a with
  | zero =>
    obtain ⟨fuel, rfl⟩ : ∃ f, fuel = f + 1 := ⟨fuel - 1, by omega⟩
    have h0 : m.read a = 0x0000#16 := by simpa using h0
    simp [putsBytes, h0]
  | succ n ih =>
    obtain ⟨fuel, rfl⟩ : ∃ f, fuel = f + 1 := ⟨fuel - 1, by omega⟩
    have shift := word_succ_add a
    have ha : m.read a ≠ 0x0000#16 := by simpa using hw 0 (by omega)
    have := ih fuel (a + 1#16) (by omega) (fun k hk => by rw [shift]; exact hw (k + 1) (by omega))
      (by rw [shift]; exact h0)
    rw [putsBytes, if_neg ha, this, List.range_succ_eq_map]
    simp [Function.comp_def, shift]

/-- PUTS finds no end only where none of the words it looks at is zero. -/
theorem putsBytes_eq_none {m : Memory} {fuel : Nat} {a : Word} :
    putsBytes m fuel a = none ↔ ∀ k < fuel, m.read (a + BitVec.ofNat 16 k) ≠ 0x0000#16 := by
  constructor
  · intro h
    by_contra hex
    simp only [not_forall, not_not] at hex
    have hex' : ∃ k, k < fuel ∧ m.read (a + BitVec.ofNat 16 k) = 0x0000#16 := by
      obtain ⟨k, hk, e⟩ := hex
      exact ⟨k, hk, e⟩
    have hspec := Nat.find_spec hex'
    have hmin := fun j (hj : j < Nat.find hex') => Nat.find_min hex' hj
    rw [putsBytes_of_terminator m (Nat.find hex') fuel a hspec.1
      (fun k hk e => hmin k hk ⟨by omega, e⟩) hspec.2] at h
    cases h
  · intro h
    induction fuel generalizing a with
    | zero => rfl
    | succ fuel ih =>
      have ha : m.read a ≠ 0x0000#16 := by simpa using h 0 (by omega)
      have : putsBytes m fuel (a + 1#16) = none := ih fun k hk => by
        have := h (k + 1) (by omega)
        rwa [word_succ_add]
      rw [putsBytes, if_neg ha, this, Option.map_none]

/-- PUTSP over `n` words with no zero byte before a word with one (R159). -/
theorem putspBytes_of_terminator (m : Memory) (n fuel : Nat) (a : Word) (hn : n < fuel)
    (hw : ∀ k < n, lowByte (m.read (a + BitVec.ofNat 16 k)) ≠ 0x00#8 ∧
      highByte (m.read (a + BitVec.ofNat 16 k)) ≠ 0x00#8)
    (h0 : lowByte (m.read (a + BitVec.ofNat 16 n)) = 0x00#8 ∨
      highByte (m.read (a + BitVec.ofNat 16 n)) = 0x00#8) :
    putspBytes m fuel a = some
      (((List.range n).flatMap fun k =>
          [lowByte (m.read (a + BitVec.ofNat 16 k)), highByte (m.read (a + BitVec.ofNat 16 k))]) ++
        if lowByte (m.read (a + BitVec.ofNat 16 n)) = 0x00#8 then []
        else [lowByte (m.read (a + BitVec.ofNat 16 n))]) := by
  induction n generalizing fuel a with
  | zero =>
    obtain ⟨fuel, rfl⟩ : ∃ f, fuel = f + 1 := ⟨fuel - 1, by omega⟩
    have e : a + BitVec.ofNat 16 0 = a := by simp
    rw [e] at h0 ⊢
    rw [putspBytes]
    by_cases hl : lowByte (m.read a) = 0x00#8
    · simp [hl]
    · have hh := h0.resolve_left hl
      simp [hl, hh]
  | succ n ih =>
    obtain ⟨fuel, rfl⟩ : ∃ f, fuel = f + 1 := ⟨fuel - 1, by omega⟩
    have shift := word_succ_add a
    have e : a + BitVec.ofNat 16 0 = a := by simp
    have ha := hw 0 (by omega)
    rw [e] at ha
    have := ih fuel (a + 1#16) (by omega) (fun k hk => by rw [shift]; exact hw (k + 1) (by omega))
      (by rw [shift]; exact h0)
    rw [putspBytes, if_neg ha.1, if_neg ha.2, this, List.range_succ_eq_map]
    simp [List.flatMap_map, shift]

/-- PUTSP finds no end only where no word it looks at has a zero byte. -/
theorem putspBytes_eq_none {m : Memory} {fuel : Nat} {a : Word} :
    putspBytes m fuel a = none ↔ ∀ k < fuel, lowByte (m.read (a + BitVec.ofNat 16 k)) ≠ 0x00#8 ∧
      highByte (m.read (a + BitVec.ofNat 16 k)) ≠ 0x00#8 := by
  constructor
  · intro h
    by_contra hex
    have hex' : ∃ k, k < fuel ∧ (lowByte (m.read (a + BitVec.ofNat 16 k)) = 0x00#8 ∨
        highByte (m.read (a + BitVec.ofNat 16 k)) = 0x00#8) := by
      simp only [not_forall] at hex
      obtain ⟨k, hk, e⟩ := hex
      exact ⟨k, hk, by tauto⟩
    have hspec := Nat.find_spec hex'
    have hmin := fun j (hj : j < Nat.find hex') => Nat.find_min hex' hj
    rw [putspBytes_of_terminator m (Nat.find hex') fuel a hspec.1
      (fun k hk => by have := hmin k hk; have : k < fuel := by omega
                      tauto) hspec.2] at h
    cases h
  · intro h
    induction fuel generalizing a with
    | zero => rfl
    | succ fuel ih =>
      have ha := h 0 (by omega)
      have e : a + BitVec.ofNat 16 0 = a := by simp
      rw [e] at ha
      have : putspBytes m fuel (a + 1#16) = none := ih fun k hk => by
        have := h (k + 1) (by omega)
        rwa [word_succ_add]
      rw [putspBytes, if_neg ha.1, if_neg ha.2, this, Option.map_none]

/-- The 65536 words from any address on are all the words of memory. -/
theorem exists_offset (a b : Word) : ∃ k < Config.memoryWords, a + BitVec.ofNat 16 k = b :=
  ⟨(b - a).toNat, (b - a).isLt, by rw [BitVec.ofNat_toNat, BitVec.setWidth_eq, BitVec.add_comm, BitVec.sub_add_cancel]⟩

end Sys2Proof.Machine
end

