-- ==== Sys2Proof/Laws/Frames.lean ====
section
/-! SUPPORT. What the two writing operations of the instructions leave unchanged, said once in the terms of
Safety.lean: the write-back of a register with its flags, and the store of a word. -/

namespace Sys2Proof.Machine

theorem regsSameExcept_of_regs_eq {ds : List Reg} {s t : State} (h : t.regs = s.regs) : RegsSameExcept ds s t :=
  fun r _ => by rw [State.reg, State.reg, h]

theorem memSameExcept_of_mem_eq {ws : List Word} {s t : State} (h : t.mem = s.mem) : MemSameExcept ws s t :=
  fun k _ => by rw [h]

/-- The write-back of the seven flag-setting instructions: the value in DR, the flags from it, and nothing
else. -/
theorem writeBack_spec (s : State) (dr : Reg) (v : Word) :
    (s.writeBack dr v).reg dr = v ∧ (s.writeBack dr v).cond = flagOf ((s.writeBack dr v).reg dr) ∧
      RegsSameExcept [dr] s (s.writeBack dr v) ∧ (s.writeBack dr v).pc = s.pc ∧
      (s.writeBack dr v).status = s.status ∧ MemSameExcept [] s (s.writeBack dr v) ∧
      ConsoleSame s (s.writeBack dr v) := by
  refine ⟨by simp [State.reg_writeBack], by simp [State.reg_writeBack], fun r hr => ?_, rfl,
    rfl, fun _ _ => rfl, rfl, rfl, rfl, rfl⟩
  rw [State.reg_writeBack, if_neg (by simpa using hr)]

/-- The store of one word: the word at its address, and nothing else. -/
theorem store_spec (s : State) (a v : Word) :
    (s.store a v).load a = v ∧ MemSameExcept [a] s (s.store a v) ∧ RegsSameExcept [] s (s.store a v) ∧
      (s.store a v).cond = s.cond ∧ (s.store a v).pc = s.pc ∧ (s.store a v).status = s.status ∧
      ConsoleSame s (s.store a v) := by
  refine ⟨read_write_self s.mem a v, fun k hk => ?_, fun _ _ => rfl, rfl, rfl, rfl, rfl, rfl, rfl, rfl⟩
  have := hk a (by simp)
  rw [State.store_mem, byteAt_write, if_neg this.2, if_neg this.1]

end Sys2Proof.Machine
end

