-- ==== Sys2Proof/Laws/PerInstr.lean ====
section
/-! SUPPORT. A family of lemmas, one for each instruction: the number its word is, from the match value of its
row in spec/opcode_table.json and the places of its fields (30_encoding.md R46). -/

namespace Sys2Proof

/-- The number of an instruction's word: the match value of its row, and each field times the weight of its
lowest bit. The unused bits are those of 30_encoding.md section 2. -/
def Instr.wordNumber : Instr → Nat
  | .br n z p off => 0x0000 + 2048 * n.toNat + 1024 * z.toNat + 512 * p.toNat + off.toNat
  | .addReg dr sr1 sr2 => 0x1000 + 512 * dr.val + 64 * sr1.val + sr2.val
  | .addImm dr sr1 imm => 0x1020 + 512 * dr.val + 64 * sr1.val + imm.toNat
  | .ld dr off => 0x2000 + 512 * dr.val + off.toNat
  | .st sr off => 0x3000 + 512 * sr.val + off.toNat
  | .jsr off => 0x4800 + off.toNat
  | .jsrr base => 0x4000 + 64 * base.val
  | .andReg dr sr1 sr2 => 0x5000 + 512 * dr.val + 64 * sr1.val + sr2.val
  | .andImm dr sr1 imm => 0x5020 + 512 * dr.val + 64 * sr1.val + imm.toNat
  | .ldr dr base off => 0x6000 + 512 * dr.val + 64 * base.val + off.toNat
  | .str sr base off => 0x7000 + 512 * sr.val + 64 * base.val + off.toNat
  | .rti => 0x8000
  | .not dr sr => 0x903F + 512 * dr.val + 64 * sr.val
  | .ldi dr off => 0xA000 + 512 * dr.val + off.toNat
  | .sti sr off => 0xB000 + 512 * sr.val + off.toNat
  | .jmp base => 0xC000 + 64 * base.val
  | .ret => 0xC1C0
  | .res => 0xD000
  | .lea dr off => 0xE000 + 512 * dr.val + off.toNat
  | .trap v => 0xF000 + v.toNat
  | .getc => 0xF020
  | .out => 0xF021
  | .puts => 0xF022
  | .inp => 0xF023
  | .putsp => 0xF024
  | .halt => 0xF025

/-- The encoder's word is that number. -/
def Laws.WordNumber.Statement (i : Instr) : Prop := (encode i).toNat = i.wordNumber

theorem Laws.WordNumber.br (n z p : Bool) (off : BitVec 9) : Laws.WordNumber.Statement (.br n z p off) := by
  show (Opcode.br.bits ++ flagBit n ++ flagBit z ++ flagBit p ++ off : BitVec (4 + 1 + 1 + 1 + 9)).toNat = _
  repeat rw [toNat_append]
  simp [Opcode.bits, Instr.wordNumber, toNat_flagBit]
  omega

theorem Laws.WordNumber.addReg (dr sr1 sr2 : Reg) : Laws.WordNumber.Statement (.addReg dr sr1 sr2) := by
  show (Opcode.add.bits ++ regBits dr ++ regBits sr1 ++ 0b000#3 ++ regBits sr2 : BitVec (4 + 3 + 3 + 3 + 3)).toNat = _
  repeat rw [toNat_append]
  simp [Opcode.bits, Instr.wordNumber, toNat_regBits]
  omega

theorem Laws.WordNumber.addImm (dr sr1 : Reg) (imm : BitVec 5) : Laws.WordNumber.Statement (.addImm dr sr1 imm) := by
  show (Opcode.add.bits ++ regBits dr ++ regBits sr1 ++ 0b1#1 ++ imm : BitVec (4 + 3 + 3 + 1 + 5)).toNat = _
  repeat rw [toNat_append]
  simp [Opcode.bits, Instr.wordNumber, toNat_regBits]
  omega

theorem Laws.WordNumber.ld (dr : Reg) (off : BitVec 9) : Laws.WordNumber.Statement (.ld dr off) := by
  show (Opcode.ld.bits ++ regBits dr ++ off : BitVec (4 + 3 + 9)).toNat = _
  repeat rw [toNat_append]
  simp [Opcode.bits, Instr.wordNumber, toNat_regBits]
  omega

theorem Laws.WordNumber.st (sr : Reg) (off : BitVec 9) : Laws.WordNumber.Statement (.st sr off) := by
  show (Opcode.st.bits ++ regBits sr ++ off : BitVec (4 + 3 + 9)).toNat = _
  repeat rw [toNat_append]
  simp [Opcode.bits, Instr.wordNumber, toNat_regBits]
  omega

theorem Laws.WordNumber.jsr (off : BitVec 11) : Laws.WordNumber.Statement (.jsr off) := by
  show (Opcode.jsr.bits ++ 0b1#1 ++ off : BitVec (4 + 1 + 11)).toNat = _
  repeat rw [toNat_append]
  simp [Opcode.bits, Instr.wordNumber]

theorem Laws.WordNumber.jsrr (base : Reg) : Laws.WordNumber.Statement (.jsrr base) := by
  show (Opcode.jsr.bits ++ 0b000#3 ++ regBits base ++ 0b000000#6 : BitVec (4 + 3 + 3 + 6)).toNat = _
  repeat rw [toNat_append]
  simp [Opcode.bits, Instr.wordNumber, toNat_regBits]
  omega

theorem Laws.WordNumber.andReg (dr sr1 sr2 : Reg) : Laws.WordNumber.Statement (.andReg dr sr1 sr2) := by
  show (Opcode.and.bits ++ regBits dr ++ regBits sr1 ++ 0b000#3 ++ regBits sr2 : BitVec (4 + 3 + 3 + 3 + 3)).toNat = _
  repeat rw [toNat_append]
  simp [Opcode.bits, Instr.wordNumber, toNat_regBits]
  omega

theorem Laws.WordNumber.andImm (dr sr1 : Reg) (imm : BitVec 5) : Laws.WordNumber.Statement (.andImm dr sr1 imm) := by
  show (Opcode.and.bits ++ regBits dr ++ regBits sr1 ++ 0b1#1 ++ imm : BitVec (4 + 3 + 3 + 1 + 5)).toNat = _
  repeat rw [toNat_append]
  simp [Opcode.bits, Instr.wordNumber, toNat_regBits]
  omega

theorem Laws.WordNumber.ldr (dr base : Reg) (off : BitVec 6) : Laws.WordNumber.Statement (.ldr dr base off) := by
  show (Opcode.ldr.bits ++ regBits dr ++ regBits base ++ off : BitVec (4 + 3 + 3 + 6)).toNat = _
  repeat rw [toNat_append]
  simp [Opcode.bits, Instr.wordNumber, toNat_regBits]
  omega

theorem Laws.WordNumber.str (sr base : Reg) (off : BitVec 6) : Laws.WordNumber.Statement (.str sr base off) := by
  show (Opcode.str.bits ++ regBits sr ++ regBits base ++ off : BitVec (4 + 3 + 3 + 6)).toNat = _
  repeat rw [toNat_append]
  simp [Opcode.bits, Instr.wordNumber, toNat_regBits]
  omega

theorem Laws.WordNumber.rti : Laws.WordNumber.Statement .rti := by
  unfold Laws.WordNumber.Statement
  decide

theorem Laws.WordNumber.not (dr sr : Reg) : Laws.WordNumber.Statement (.not dr sr) := by
  show (Opcode.not.bits ++ regBits dr ++ regBits sr ++ 0b111111#6 : BitVec (4 + 3 + 3 + 6)).toNat = _
  repeat rw [toNat_append]
  simp [Opcode.bits, Instr.wordNumber, toNat_regBits]
  omega

theorem Laws.WordNumber.ldi (dr : Reg) (off : BitVec 9) : Laws.WordNumber.Statement (.ldi dr off) := by
  show (Opcode.ldi.bits ++ regBits dr ++ off : BitVec (4 + 3 + 9)).toNat = _
  repeat rw [toNat_append]
  simp [Opcode.bits, Instr.wordNumber, toNat_regBits]
  omega

theorem Laws.WordNumber.sti (sr : Reg) (off : BitVec 9) : Laws.WordNumber.Statement (.sti sr off) := by
  show (Opcode.sti.bits ++ regBits sr ++ off : BitVec (4 + 3 + 9)).toNat = _
  repeat rw [toNat_append]
  simp [Opcode.bits, Instr.wordNumber, toNat_regBits]
  omega

theorem Laws.WordNumber.jmp (base : Reg) : Laws.WordNumber.Statement (.jmp base) := by
  show (Opcode.jmp.bits ++ 0b000#3 ++ regBits base ++ 0b000000#6 : BitVec (4 + 3 + 3 + 6)).toNat = _
  repeat rw [toNat_append]
  simp [Opcode.bits, Instr.wordNumber, toNat_regBits]
  omega

theorem Laws.WordNumber.ret : Laws.WordNumber.Statement .ret := by
  unfold Laws.WordNumber.Statement
  decide

theorem Laws.WordNumber.res : Laws.WordNumber.Statement .res := by
  unfold Laws.WordNumber.Statement
  decide

theorem Laws.WordNumber.lea (dr : Reg) (off : BitVec 9) : Laws.WordNumber.Statement (.lea dr off) := by
  show (Opcode.lea.bits ++ regBits dr ++ off : BitVec (4 + 3 + 9)).toNat = _
  repeat rw [toNat_append]
  simp [Opcode.bits, Instr.wordNumber, toNat_regBits]
  omega

theorem Laws.WordNumber.trap (v : Byte) : Laws.WordNumber.Statement (.trap v) := by
  show (Opcode.trap.bits ++ 0b0000#4 ++ v : BitVec (4 + 4 + 8)).toNat = _
  repeat rw [toNat_append]
  simp [Opcode.bits, Instr.wordNumber]

theorem Laws.WordNumber.getc : Laws.WordNumber.Statement .getc := by
  unfold Laws.WordNumber.Statement
  decide

theorem Laws.WordNumber.out : Laws.WordNumber.Statement .out := by
  unfold Laws.WordNumber.Statement
  decide

theorem Laws.WordNumber.puts : Laws.WordNumber.Statement .puts := by
  unfold Laws.WordNumber.Statement
  decide

theorem Laws.WordNumber.inp : Laws.WordNumber.Statement .inp := by
  unfold Laws.WordNumber.Statement
  decide

theorem Laws.WordNumber.putsp : Laws.WordNumber.Statement .putsp := by
  unfold Laws.WordNumber.Statement
  decide

theorem Laws.WordNumber.halt : Laws.WordNumber.Statement .halt := by
  unfold Laws.WordNumber.Statement
  decide

end Sys2Proof
end

