-- ==== Sys2Proof/Tests/Slice0.lean ====
section
/-! SUPPORT. Tests of this model on words and states written out by hand. The expected results are those of
95_test_vectors.md (the id of the vector stands in the test's comment) or of the rule named there, none is
the model's own answer. After them, a witness for the hypotheses of each statement that has any. -/

namespace Sys2Proof.Tests

open Sys2Proof.Machine

/-! ### Helpers -/

/-- The reset state with a program counter, flags, registers and words of memory put in. -/
def start (pc : Word) (c : Cond) (rs : List (Reg × Word)) (ws : List (Word × Word)) : State :=
  let s := { State.reset with pc := pc, cond := c }
  let s := rs.foldl (fun s p => s.setReg p.1 p.2) s
  ws.foldl (fun s p => s.store p.1 p.2) s

/-- The next state, where there is one. -/
def next? : Host.Outcome State Fault Refusal → Option State
  | .next t => some t
  | .fault _ => none
  | .refused _ => none

/-- What `f` sees in the state after one step. -/
def look {α : Type} (f : State → α) (s : State) : Option α := (next? (step s)).map f

/-! ### WellFormed: the checks refuse an ill-formed term -/

theorem test_wf_refuses_jmp_r7 : (Instr.jmp 7).wf = false := by decide
theorem test_wf_refuses_trap_of_a_service :
    (Instr.trap 0x20#8).wf = false ∧ (Instr.trap 0x25#8).wf = false := by decide
theorem test_wf_admits_the_neighbours :
    (Instr.jmp 6).wf = true ∧ (Instr.trap 0x1F#8).wf = true ∧ (Instr.trap 0x26#8).wf = true := by decide

/-! ### Decoding: a word of every constructor, its bits laid out as R47 to R55 and the table's rows draw it -/

theorem test_decode_br : decode 0b0000_1_0_1_111111101#16 = .br true false true 0x1FD#9 := by decide
theorem test_decode_addReg : decode 0b0001_000_001_0_00_010#16 = .addReg 0 1 2 := by decide
theorem test_decode_addImm : decode 0b0001_000_001_1_11110#16 = .addImm 0 1 0b11110#5 := by decide
theorem test_decode_ld : decode 0b0010_000_000000010#16 = .ld 0 2#9 := by decide
theorem test_decode_st : decode 0b0011_101_000000001#16 = .st 5 1#9 := by decide
theorem test_decode_jsr : decode 0b0100_1_00000000010#16 = .jsr 2#11 := by decide
theorem test_decode_jsrr : decode 0b0100_0_00_010_000000#16 = .jsrr 2 := by decide
theorem test_decode_andReg : decode 0b0101_110_001_0_00_010#16 = .andReg 6 1 2 := by decide
theorem test_decode_andImm : decode 0b0101_011_100_1_10000#16 = .andImm 3 4 0b10000#5 := by decide
theorem test_decode_ldr : decode 0b0110_001_010_100000#16 = .ldr 1 2 0b100000#6 := by decide
theorem test_decode_str : decode 0b0111_000_110_000001#16 = .str 0 6 1#6 := by decide
theorem test_decode_rti : decode 0b1000_101010111100#16 = .rti := by decide
theorem test_decode_not : decode 0b1001_001_010_111111#16 = .not 1 2 := by decide
theorem test_decode_ldi : decode 0b1010_001_000000101#16 = .ldi 1 5#9 := by decide
theorem test_decode_sti : decode 0b1011_001_000000100#16 = .sti 1 4#9 := by decide
theorem test_decode_jmp : decode 0b1100_111_010_111111#16 = .jmp 2 := by decide
theorem test_decode_ret : decode 0b1100_000_111_000000#16 = .ret := by decide
theorem test_decode_res : decode 0b1101_111111111111#16 = .res := by decide
theorem test_decode_lea : decode 0b1110_100_100000000#16 = .lea 4 0x100#9 := by decide
theorem test_decode_trap : decode 0b1111_0000_10011001#16 = .trap 0x99#8 := by decide
theorem test_decode_getc : decode 0b1111_0000_00100000#16 = .getc := by decide
theorem test_decode_out : decode 0b1111_0000_00100001#16 = .out := by decide
theorem test_decode_puts : decode 0b1111_0000_00100010#16 = .puts := by decide
theorem test_decode_inp : decode 0b1111_0000_00100011#16 = .inp := by decide
theorem test_decode_putsp : decode 0b1111_0000_00100100#16 = .putsp := by decide
theorem test_decode_halt : decode 0b1111_1111_00100101#16 = .halt := by decide
theorem test_decode_table_word : decodeTableWord 16 0xC1C0 = some .ret := by decide
theorem test_decode_truncated : decodeBytes [0xF0#8] = .error .truncatedWord := rfl

/-! ### Sign extension (95_test_vectors.md 2.0) -/

theorem test_sext :
    sext 0x1E#5 = 0xFFFE#16 ∧ sext 0x0F#5 = 0x000F#16 ∧ sext 0x20#6 = 0xFFE0#16 ∧ sext 0x1FD#9 = 0xFFFD#16 ∧
    sext 0x3FF#11 = 0x03FF#16 ∧ sext 0x400#11 = 0xFC00#16 ∧ sext 0x8000#16 = 0x8000#16 := by decide

/-! ### One step of each instruction -/

/-- A3: wrap to zero, DR both sources. -/
theorem test_addReg_wraps :
    look (fun t => (t.reg 3, t.cond)) (start 0x3000#16 .negative [(3, 0x8000#16)] [(0x3000#16, 0x16C3#16)]) =
      some (0x0000#16, .zero) := by decide
/-- A9: the unused bits are ignored. -/
theorem test_addReg_ignores_unused_bits :
    look (fun t => (t.reg 0, t.cond)) (start 0x3000#16 .zero [(1, 0x000A#16), (2, 0x0005#16)] [(0x3000#16, 0x105A#16)]) =
      some (0x000F#16, .positive) := by decide
/-- A4: signed overflow is no event. -/
theorem test_addImm_overflow :
    look (fun t => (t.reg 2, t.cond)) (start 0x3000#16 .positive [(1, 0x7FFF#16)] [(0x3000#16, 0x1461#16)]) =
      some (0x8000#16, .negative) := by decide
/-- A6: a negative immediate. -/
theorem test_addImm_borrow :
    look (fun t => (t.reg 2, t.cond)) (start 0x3000#16 .zero [] [(0x3000#16, 0x147F#16)]) =
      some (0xFFFF#16, .negative) := by decide
/-- A10. -/
theorem test_andReg :
    look (fun t => (t.reg 0, t.cond)) (start 0x3000#16 .zero [(1, 0xFF0F#16), (2, 0x0FF0#16)] [(0x3000#16, 0x5042#16)]) =
      some (0x0F00#16, .positive) := by decide
/-- A13: the mask FFF0. -/
theorem test_andImm :
    look (fun t => (t.reg 2, t.cond)) (start 0x3000#16 .zero [(1, 0x00FF#16)] [(0x3000#16, 0x5470#16)]) =
      some (0x00F0#16, .positive) := by decide
/-- A18: the low bits are ignored. -/
theorem test_not :
    look (fun t => (t.reg 1, t.cond)) (start 0x3000#16 .zero [(2, 0x00FF#16)] [(0x3000#16, 0x9280#16)]) =
      some (0xFF00#16, .negative) := by decide
/-- B1 and B2: taken backward, and not taken. -/
theorem test_br :
    look State.pc (start 0x3005#16 .positive [] [(0x3005#16, 0x03FD#16)]) = some 0x3003#16 ∧
    look State.pc (start 0x3005#16 .zero [] [(0x3005#16, 0x03FD#16)]) = some 0x3006#16 := by decide
/-- B6: the increment wraps, then the offset is added. -/
theorem test_br_wraps : look State.pc (start 0xFFFF#16 .zero [] [(0xFFFF#16, 0x0E02#16)]) = some 0x0002#16 := by decide
/-- J2: the unused bits are ignored. -/
theorem test_jmp : look State.pc (start 0x3000#16 .zero [(2, 0x4000#16)] [(0x3000#16, 0xCEBF#16)]) = some 0x4000#16 := by decide
/-- J3. -/
theorem test_ret : look State.pc (start 0x3007#16 .zero [(7, 0x3003#16)] [(0x3007#16, 0xC1C0#16)]) = some 0x3003#16 := by decide
/-- J4: the link is written and the flags are not. -/
theorem test_jsr :
    look (fun t => (t.reg 7, t.pc, t.cond)) (start 0x3002#16 .negative [] [(0x3002#16, 0x4802#16)]) =
      some (0x3003#16, 0x3005#16, .negative) := by decide
/-- J5: the smallest offset. -/
theorem test_jsr_smallest : look State.pc (start 0x3000#16 .zero [] [(0x3000#16, 0x4C00#16)]) = some 0x2C01#16 := by decide
/-- J9: JSRR through register 7 falls through. -/
theorem test_jsrr_r7 :
    look (fun t => (t.reg 7, t.pc)) (start 0x3000#16 .zero [(7, 0x5000#16)] [(0x3000#16, 0x41C0#16)]) =
      some (0x3001#16, 0x3001#16) := by decide
/-- J10: the link is the wrapped program counter. -/
theorem test_jsrr_wraps :
    look (fun t => (t.reg 7, t.pc)) (start 0xFFFF#16 .zero [(0, 0x1234#16)] [(0xFFFF#16, 0x4000#16)]) =
      some (0x0000#16, 0x1234#16) := by decide
/-- L2: it loads its own word. -/
theorem test_ld_itself :
    look (fun t => (t.reg 3, t.cond)) (start 0x3000#16 .zero [] [(0x3000#16, 0x27FF#16)]) = some (0x27FF#16, .positive) := by decide
/-- L6: the address wraps. -/
theorem test_ld_wraps :
    look (fun t => (t.reg 1, t.cond, t.pc)) (start 0xFFFF#16 .zero [] [(0xFFFF#16, 0x2201#16), (0x0001#16, 0xABCD#16)]) =
      some (0xABCD#16, .negative, 0x0000#16) := by decide
/-- L7. -/
theorem test_ldi :
    look (fun t => (t.reg 1, t.cond))
      (start 0x3000#16 .zero [] [(0x3000#16, 0xA205#16), (0x3006#16, 0x4000#16), (0x4000#16, 0xC001#16)]) =
      some (0xC001#16, .negative) := by decide
/-- L10: the base is read before DR is written. -/
theorem test_ldr_same_register :
    look (fun t => t.reg 6) (start 0x3000#16 .zero [(6, 0x3008#16)] [(0x3000#16, 0x6D80#16), (0x3008#16, 0x4000#16)]) =
      some 0x4000#16 := by decide
/-- L14: the address wraps down. -/
theorem test_ldr_wraps :
    look (fun t => t.reg 1) (start 0x3000#16 .zero [] [(0x3000#16, 0x62BF#16), (0xFFFF#16, 0x0043#16)]) =
      some 0x0043#16 := by decide
/-- L16: the flags from the address. -/
theorem test_lea :
    look (fun t => (t.reg 4, t.cond)) (start 0x8100#16 .zero [] [(0x8100#16, 0xE900#16)]) =
      some (0x8001#16, .negative) := by decide
/-- M1: the store, and the flags left alone. -/
theorem test_st :
    look (fun t => (t.load 0x3008#16, t.cond)) (start 0x3006#16 .negative [(0, 0x000F#16)] [(0x3006#16, 0x3001#16)]) =
      some (0x000F#16, .negative) := by decide
/-- M4. -/
theorem test_sti :
    look (fun t => (t.load 0x4001#16, t.load 0x3007#16))
      (start 0x3002#16 .positive [(1, 0x8002#16)] [(0x3002#16, 0xB204#16), (0x3007#16, 0x4001#16)]) =
      some (0x8002#16, 0x4001#16) := by decide
/-- M5: it overwrites its own pointer. -/
theorem test_sti_own_pointer :
    look (fun t => t.load 0x3001#16) (start 0x3000#16 .zero [(1, 0x1111#16)] [(0x3000#16, 0xB200#16), (0x3001#16, 0x3001#16)]) =
      some 0x1111#16 := by decide
/-- M8: the address wraps down. -/
theorem test_str :
    look (fun t => t.load 0xFFF0#16) (start 0x3000#16 .zero [(1, 0x0007#16), (2, 0x0010#16)] [(0x3000#16, 0x72A0#16)]) =
      some 0x0007#16 := by decide
/-- T2. -/
theorem test_rti :
    look id (start 0x3000#16 .negative [(1, 0x0003#16)] [(0x3000#16, 0x8ABC#16)]) =
      some (start 0x3001#16 .negative [(1, 0x0003#16)] [(0x3000#16, 0x8ABC#16)]) := by decide
/-- T4. -/
theorem test_res :
    look id (start 0x3000#16 .negative [] [(0x3000#16, 0xDFFF#16)]) =
      some (start 0x3001#16 .negative [] [(0x3000#16, 0xDFFF#16)]) := by decide
/-- T5: zero-extended, the flags left alone, no echo. -/
theorem test_getc :
    look (fun t => (t.reg 0, t.cond, t.input, t.output))
      { start 0x3000#16 .negative [(0, 0xFFFF#16)] [(0x3000#16, 0xF020#16)] with input := [0x71#8] } =
      some (0x0071#16, .negative, [], []) := by decide
/-- T8: the input has ended, and the step never completes. -/
theorem test_getc_ended :
    look State.pc { start 0x3000#16 .zero [] [(0x3000#16, 0xF020#16)] with inputEnded := true } = none := by decide
/-- T10: the upper byte is ignored. -/
theorem test_out :
    look State.output (start 0x3000#16 .zero [(0, 0x1234#16)] [(0x3000#16, 0xF021#16)]) = some [0x34#8] := by decide
/-- T14: the test is on the whole word. -/
theorem test_puts :
    look State.output (start 0x3000#16 .zero [(0, 0x4000#16)] [(0x3000#16, 0xF022#16), (0x4000#16, 0x0100#16), (0x4001#16, 0x0041#16)]) =
      some [0x00#8, 0x41#8] := by decide
/-- T15: the address wraps. -/
theorem test_puts_wraps :
    look State.output (start 0x3000#16 .zero [(0, 0xFFFF#16)] [(0x3000#16, 0xF022#16), (0xFFFF#16, 0x0058#16), (0x0000#16, 0x0059#16)]) =
      some [0x58#8, 0x59#8] := by decide
/-- T16: the prompt, then the echo. -/
theorem test_inp :
    look (fun t => (t.reg 0, t.output))
      { start 0x3000#16 .negative [(0, 0xFFFF#16)] [(0x3000#16, 0xF023#16)] with input := [0x79#8] } =
      some (0x0079#16, Config.inPrompt ++ [0x79#8]) := rfl
/-- T17: a zero high byte ends the string. -/
theorem test_putsp :
    look State.output (start 0x3000#16 .zero [(0, 0x3003#16)] [(0x3000#16, 0xF024#16), (0x3003#16, 0x6948#16), (0x3004#16, 0x0021#16)]) =
      some [0x48#8, 0x69#8, 0x21#8] := by decide
/-- T21: a zero low byte ends the string. -/
theorem test_putsp_zero_low_byte :
    look State.output (start 0x3000#16 .zero [(0, 0x4000#16)] [(0x3000#16, 0xF024#16), (0x4000#16, 0x4100#16), (0x4001#16, 0x0042#16)]) =
      some [] := by decide
/-- T23. -/
theorem test_halt :
    look (fun t => (t.pc, t.status)) (start 0x3002#16 .zero [] [(0x3002#16, 0xFF25#16)]) = some (0x3003#16, .halted) := by decide
/-- T25 and T26: just outside the table. -/
theorem test_trap_unknown :
    look State.status (start 0x3000#16 .zero [] [(0x3000#16, 0xF01F#16)]) = some (.failed 0x1F#8) ∧
    look State.status (start 0x3000#16 .zero [] [(0x3000#16, 0xF026#16)]) = some (.failed 0x26#8) := by decide
/-- T29: no step from a terminal state. -/
theorem test_stopped : look id { State.reset with status := .halted } = none := by decide
/-- The file of S3 (R196) stands in memory. -/
theorem test_load_object :
    (State.reset.loadObject [0x30#8, 0x00#8, 0x20#8, 0x02#8, 0xF0#8, 0x21#8, 0xF0#8, 0x25#8, 0x00#8, 0x41#8]).map
      (fun t => (t.load 0x3000#16, t.load 0x3003#16, t.load 0x3004#16)) = some (0x2002#16, 0x0041#16, 0x0000#16) := by decide

/-! ### Witnesses: the hypotheses of each statement are met, each clause at an end of its range -/

/-- A running state with a word at `pc`, registers and memory that are not all zero. -/
def busy (w : Word) : State := start 0x3000#16 .positive [(0, 0x4000#16), (1, 0x0007#16)] [(0x3000#16, w), (0x4000#16, 0x6948#16), (0x4001#16, 0x0021#16)]

theorem witness_EncodeThenDecodeGivesTheInstruction :
    (Instr.jmp 6).wf = true ∧ (Instr.trap 0x1F#8).wf = true ∧ (Instr.trap 0x26#8).wf = true := by decide
theorem witness_DecodeDependsOnTheUsedBitsOnly :
    0x105A#16 ≠ 0x1042#16 ∧ 0x105A#16 &&& usedBits (decode 0x1042#16) = 0x1042#16 &&& usedBits (decode 0x1042#16) := by decide
theorem witness_SignExtensionIsTwosComplement : 0 < 1 ∧ 1 ≤ 16 ∧ 0 < 16 ∧ 16 ≤ 16 := by decide
theorem witness_TrapVectorIsTheUnsignedLowByte : 0xF000 ≤ (0xF000#16).toNat ∧ 0xF000 ≤ (0xFFFF#16).toNat := by decide
theorem witness_StoredWordIsReadAndNoOtherChanges : (0x0000#16 : Word) ≠ 0xFFFF#16 := by decide
theorem witness_StepKeepsMemoryCanonical : (busy 0x3200#16).Inv ∧ ∃ t, step (busy 0x3200#16) = .next t :=
  ⟨by decide, _, rfl⟩
theorem witness_CanonicalMemoriesThatReadAlikeAreEqual :
    ∃ m m' : Memory, m ≠ [] ∧ m.wf ∧ m'.wf ∧ ∀ a, m.read a = m'.read a :=
  ⟨[(131071, 0x01#8)], [(131071, 0x01#8)], by decide, by decide, by decide, fun _ => rfl⟩
/-- For AndRegisterIsBitwise, AndImmediateIsBitwiseWithTheSignedImmediate and NotInvertsEveryBit. -/
theorem witness_lowest_and_highest_bit : 0 < 16 ∧ 15 < 16 := by decide
theorem witness_BranchIsTakenExactlyWhenFlagsMeetMask :
    (let s := busy 0x0000#16
     (false = true ∧ s.cond = .negative ∨ false = true ∧ s.cond = .zero ∨ true = true ∧ s.cond = .positive)) ∧
    (let s := busy 0x0000#16
     ¬(true = true ∧ s.cond = .negative ∨ true = true ∧ s.cond = .zero ∨ false = true ∧ s.cond = .positive)) ∧
    (let s := start 0#16 .zero [] []
     (false = true ∧ s.cond = .negative ∨ true = true ∧ s.cond = .zero ∨ false = true ∧ s.cond = .positive)) ∧
    (let s := start 0#16 .negative [] []
     (true = true ∧ s.cond = .negative ∨ false = true ∧ s.cond = .zero ∨ false = true ∧ s.cond = .positive)) := by
  decide
theorem witness_LdLoadsThePcRelativeWord :
    (((0xFFFF#16 : Word).toNat : Int) = ((start 0x0000#16 .zero [] []).pc.toNat + (0x1FF#9).toInt) % 65536) := by decide
theorem witness_LdiLoadsThroughThePointer :
    (((0x0000#16 : Word).toNat : Int) = ((start 0xFFFF#16 .zero [] []).pc.toNat + (0x001#9).toInt) % 65536) := by decide
theorem witness_LdrLoadsFromBasePlusOffset :
    (((0xFFE0#16 : Word).toNat : Int) = (((start 0x0000#16 .zero [] []).reg 2).toNat + (0x20#6).toInt) % 65536) := by decide
theorem witness_StStoresAtThePcRelativeAddress : (busy 0#16).pcRel9 0x1FF#9 = 0x2FFF#16 := by decide
theorem witness_StiStoresThroughThePointer : (busy 0x4000#16).load ((busy 0x4000#16).pcRel9 0#9) = 0x4000#16 := by decide
theorem witness_StrStoresAtBasePlusOffset : (busy 0#16).baseOffset 1 0x20#6 = 0xFFE7#16 := by decide
theorem witness_GetcReadsOneByteIntoR0 :
    ({ busy 0#16 with input := [0xFF#8] }).input = 0xFF#8 :: [] ∧ (busy 0#16).input = [] ∧ (busy 0#16).inputEnded = false := by decide
theorem witness_InPromptsReadsAndEchoes :
    ({ busy 0#16 with input := [0x00#8, 0x41#8] }).input = 0x00#8 :: [0x41#8] ∧ (busy 0#16).input = [] ∧
    (busy 0#16).inputEnded = false := by decide
theorem witness_PutsWritesTheStringAtR0 :
    (2 < 65536 ∧ (∀ k < 2, (busy 0#16).load ((busy 0#16).reg 0 + BitVec.ofNat 16 k) ≠ 0x0000#16) ∧
      (busy 0#16).load ((busy 0#16).reg 0 + BitVec.ofNat 16 2) = 0x0000#16) ∧
    State.reset.load (State.reset.reg 0 + BitVec.ofNat 16 0) = 0x0000#16 := by decide
theorem witness_PutspWritesThePackedStringAtR0 :
    (1 < 65536 ∧ (∀ k < 1, ((busy 0#16).load ((busy 0#16).reg 0 + BitVec.ofNat 16 k)).extractLsb' 0 8 ≠ 0x00#8 ∧
        ((busy 0#16).load ((busy 0#16).reg 0 + BitVec.ofNat 16 k)).extractLsb' 8 8 ≠ 0x00#8) ∧
      ((busy 0#16).load ((busy 0#16).reg 0 + BitVec.ofNat 16 1)).extractLsb' 8 8 = 0x00#8) ∧
    (State.reset.load (State.reset.reg 0 + BitVec.ofNat 16 0)).extractLsb' 0 8 = 0x00#8 := by decide
theorem witness_UnknownVectorFailsForGood :
    (0x1F#8).toNat < 0x20 ∧ 0x25 < (0x26#8).toNat ∧ (0x00#8).toNat < 0x20 ∧ 0x25 < (0xFF#8).toNat := by decide
theorem witness_EndedInputHoldsTheService :
    ({ busy 0#16 with inputEnded := true }).input = [] ∧ ({ busy 0#16 with inputEnded := true }).inputEnded = true := by decide

/-- A memory with every byte 0x01. -/
def fullMemory (n : Nat) : Memory := (List.range' 0 n).map fun k => (k, 0x01#8)

theorem byteAt_range' (a n k : Nat) (h : a ≤ k ∧ k < a + n) :
    Memory.byteAt ((List.range' a n).map fun k => (k, 0x01#8)) k = 0x01#8 := by
  induction n generalizing a with
  | zero => omega
  | succ n ih =>
    rw [List.range'_succ, List.map_cons, Memory.byteAt]
    split
    · rfl
    · rename_i hne
      simp only at hne
      exact ih (a + 1) (by omega)

theorem read_fullMemory (a : Word) : Memory.read (fullMemory 131072) a = 0x0101#16 := by
  have ha := a.isLt
  rw [Memory.read, fullMemory, byteAt_range' 0 131072 _ (by simp only [Memory.highCell]; omega),
    byteAt_range' 0 131072 _ (by simp only [Memory.lowCell]; omega)]
  decide

/-- Both sides of both clauses: a memory without end of string, and one with. -/
theorem witness_StringsNeverEndExactlyWithoutTerminator :
    (∀ a, ({ State.reset with mem := fullMemory 131072 } : State).load a ≠ 0x0000#16) ∧
    (∀ a, (({ State.reset with mem := fullMemory 131072 } : State).load a).extractLsb' 0 8 ≠ 0x00#8 ∧
      (({ State.reset with mem := fullMemory 131072 } : State).load a).extractLsb' 8 8 ≠ 0x00#8) ∧
    State.reset.load 0x0000#16 = 0x0000#16 := by
  refine ⟨fun a => ?_, fun a => ?_, by decide⟩ <;>
    rw [show ({ State.reset with mem := fullMemory 131072 } : State).load a = _ from read_fullMemory a] <;> decide

theorem witness_StepRunsTheDecodedInstruction :
    (busy 0xFFFF#16).status = .running ∧ (Instr.trap 0xFF#8).wf = true ∧
    decode ((busy 0xFFFF#16).load (busy 0xFFFF#16).pc) = .trap 0xFF#8 := by decide
theorem witness_StoppedMachineTakesNoStep :
    ({ busy 0#16 with status := .halted }).status = .halted ∧
    ({ busy 0#16 with status := .failed 0x99#8 }).status = .failed 0x99#8 ∧ (busy 0#16).status = .running := by decide
theorem witness_EveryWordButTrapExecutes :
    (busy 0xEFFF#16).status = .running ∧ ((busy 0xEFFF#16).load (busy 0xEFFF#16).pc).toNat < 0xF000 := by decide
/-- An ended read, and an endless string of each of the two string services. -/
theorem witness_OnlyConsoleServicesCanHang :
    exec .getc { busy 0#16 with inputEnded := true } = .fault (.inputEnded { busy 0#16 with inputEnded := true }) ∧
    exec .puts { State.reset with mem := fullMemory 131072 } = .fault .endlessString ∧
    exec .putsp { State.reset with mem := fullMemory 131072 } = .fault .endlessString := by
  have hputs : ∀ s, exec .puts s = servicePuts s := fun _ => rfl
  have hputsp : ∀ s, exec .putsp s = servicePutsp s := fun _ => rfl
  refine ⟨rfl, ?_, ?_⟩
  · rw [hputs, servicePuts, putsBytes_eq_none.mpr fun k _ => by rw [read_fullMemory]; decide]
  · rw [hputsp, servicePutsp, putspBytes_eq_none.mpr fun k _ => by rw [read_fullMemory]; decide]
/-- ST, STI and STR, each to the address of the next instruction. -/
theorem witness_StoredWordIsTheNextInstruction :
    (decode ((busy 0x3200#16).load 0x3000#16) = .st 1 0#9 ∧ (busy 0x3200#16).advance.pcRel9 0#9 = 0x3000#16 + 1#16 ∧
      ∃ t, step (busy 0x3200#16) = .next t) ∧
    (let s := (busy 0xB200#16).store 0x3001#16 0x3001#16
     decode (s.load 0x3000#16) = .sti 1 0#9 ∧ s.load (s.advance.pcRel9 0#9) = 0x3000#16 + 1#16 ∧ ∃ t, step s = .next t) ∧
    (let s := (busy 0x7281#16).setReg 2 0x3000#16
     decode (s.load 0x3000#16) = .str 1 2 1#6 ∧ s.baseOffset 2 1#6 = 0x3000#16 + 1#16 ∧ ∃ t, step s = .next t) :=
  ⟨⟨by decide, by decide, _, rfl⟩, ⟨by decide, by decide, _, rfl⟩, ⟨by decide, by decide, _, rfl⟩⟩
theorem witness_ZeroWordsOnlyAdvanceThePc :
    State.reset.status = .running ∧ ∀ j < 3, State.reset.load (State.reset.pc + BitVec.ofNat 16 j) = 0x0000#16 := by decide
/-- For the rules about every instruction that completes: one that sets the flags, one that does not, a store,
a control transfer, a service that writes `x[0]`, and the two that change the status. -/
theorem witness_instructions_complete :
    (∃ t, exec (.addImm 0 1 1#5) (busy 0#16) = .next t) ∧ (∃ t, exec .rti (busy 0#16) = .next t) ∧
    (∃ t, exec (.st 1 0#9) (busy 0#16) = .next t) ∧ (∃ t, exec (.jmp 7) (busy 0#16) = .next t) ∧
    (∃ t, exec .getc (busy 0#16) = .next t) ∧ (∃ t, exec .putsp (busy 0#16) = .next t) ∧
    (∃ t, exec .halt (busy 0#16) = .next t ∧ t.status ≠ (busy 0#16).status) ∧
    (∃ t, exec (.trap 0x99#8) (busy 0#16) = .next t ∧ t.status ≠ (busy 0#16).status) :=
  ⟨⟨_, rfl⟩, ⟨_, rfl⟩, ⟨_, rfl⟩, ⟨_, rfl⟩, ⟨_, rfl⟩, ⟨_, rfl⟩, ⟨_, rfl, by decide⟩, ⟨_, rfl, by decide⟩⟩
theorem witness_OnlyTheListedRegisterIsWritten :
    writtenRegister .getc ≠ some 1 ∧ flagSetter (.ld 7 0#9) = some 7 ∧ ∃ t, exec .getc (busy 0#16) = .next t :=
  ⟨by decide, by decide, _, rfl⟩
theorem witness_FlagsAreWrittenByExactlySevenInstructions :
    (flagSetter (.lea 0 0#9) = some 0 ∧ ∃ t, exec (.lea 0 0#9) (busy 0#16) = .next t) ∧
    (flagSetter .getc = none ∧ ∃ t, exec .getc (busy 0#16) = .next t) :=
  ⟨⟨by decide, _, rfl⟩, ⟨by decide, _, rfl⟩⟩
theorem witness_OnlyControlTransfersWriteThePc :
    brTaken true true false (busy 0#16).cond = false ∧ ∃ t, exec (.br true true false 1#9) (busy 0#16) = .next t :=
  ⟨by decide, _, rfl⟩
theorem witness_OnlyStoresWriteMemory :
    (storeAddress (.sti 1 0#9) (busy 0#16) = some 0x0000#16 ∧ ∃ t, exec (.sti 1 0#9) (busy 0#16) = .next t) ∧
    (storeAddress .puts (busy 0#16) = none ∧ ∃ t, exec .puts (busy 0#16) = .next t) :=
  ⟨⟨by decide, _, rfl⟩, ⟨by decide, _, rfl⟩⟩
theorem witness_StatusChangesOnlyByHaltOrUnknownVector :
    ∃ t, exec (.trap 0x26#8) (busy 0#16) = .next t ∧ t.status ≠ (busy 0#16).status := ⟨_, rfl, by decide⟩
theorem witness_ConsoleStreamsOnlyMoveForward :
    ∃ t, exec .inp { busy 0#16 with input := [0x41#8] } = .next t ∧ t.input ≠ [0x41#8] := ⟨_, rfl, by decide⟩
theorem witness_OnlyBranchReadsTheFlags : ∀ n z p off, Instr.puts ≠ .br n z p off := by intros; simp
/-- A memory that agrees on the words LD, STI, PUTS and PUTSP read and differs elsewhere; each completes, STI
with a write that the table lists. -/
theorem witness_InstructionsReadAndWriteOnlyTheListedWords :
    ∃ m : Memory, m ≠ (busy 0#16).mem ∧
      (∀ i ∈ [Instr.ld 0 0#9, .sti 1 0#9, .puts, .putsp],
        (∀ a, Access.read a ∈ dataAccesses i (busy 0#16) → m.read a = (busy 0#16).load a) ∧
        ∃ t, exec i (busy 0#16) = .next t) ∧
      Access.write 0x0000#16 0x0007#16 ∈ dataAccesses (.sti 1 0#9) (busy 0#16) ∧
      Access.read 0x4001#16 ∈ dataAccesses .puts (busy 0#16) ∧
      Access.read 0x4001#16 ∈ dataAccesses .putsp (busy 0#16) := by
  have hld : dataAccesses (.ld 0 0#9) (busy 0#16) = [.read 0x3000#16] := rfl
  have hsti : dataAccesses (.sti 1 0#9) (busy 0#16) = [.read 0x3000#16, .write 0x0000#16 0x0007#16] := rfl
  have hputs : dataAccesses .puts (busy 0#16) = [.read 0x4000#16, .read 0x4001#16, .read 0x4002#16] := rfl
  have hputsp : dataAccesses .putsp (busy 0#16) = [.read 0x4000#16, .read 0x4001#16] := rfl
  refine ⟨(busy 0#16).mem.write 0x5000#16 0x0001#16, by decide, ?_, by simp [hsti], by simp [hputs], by simp [hputsp]⟩
  simp only [hld, hsti, hputs, hputsp, List.mem_cons, Access.read.injEq, List.not_mem_nil, or_false, reduceCtorEq,
    forall_eq_or_imp, forall_eq]
  exact ⟨⟨by decide, _, rfl⟩, ⟨by decide, _, rfl⟩, ⟨by decide, _, rfl⟩, ⟨by decide, _, rfl⟩⟩
theorem witness_LoadedImageStandsFromItsOrigin :
    (0xFFFF#16).toNat + [0x1234#16].length ≤ 65536 ∧ [0x30#8].length % 2 = 1 := by decide

end Sys2Proof.Tests
end

section
/-! SUPPORT. The scope rules R4 and R5 (00_scope.md section 5): sign extension of a field, and the trap vector
as an unsigned number. -/

/-! ### Sign extension (R4) -/

namespace Sys2Proof.Machine

/-- The new high bits are copies of the field's top bit. -/
theorem toNat_sext {n : Nat} (v : BitVec n) (hn : n ≤ 16) :
    (sext v).toNat = if v.getLsbD (n - 1) then v.toNat + (65536 - 2 ^ n) else v.toNat := by
  have hfit : (v.setWidth 16).toNat = v.toNat := BitVec.toNat_setWidth_of_le hn
  rw [sext, BitVec.toNat_signExtend, hfit, BitVec.msb_eq_getLsbD_last]
  split <;> rfl

theorem toInt_sext {n : Nat} (v : BitVec n) (hn : n ≤ 16) : (sext v).toInt = v.toInt :=
  BitVec.toInt_signExtend_of_le hn

theorem sext_word (v : Word) : sext v = v := BitVec.signExtend_eq v

end Sys2Proof.Machine

/-! ### The trap vector (R5, R110) -/

namespace Sys2Proof

/-- TRAP's opcode number is the largest of R56, so its words are the last 4096. -/
theorem opcodeField_eq_trap_iff (w : Word) : opcodeField w = Opcode.trap.bits ↔ 0xF000 ≤ w.toNat := by
  have hop : (opcodeField w).toNat = w.toNat / 4096 % 16 := toNat_opcodeField w
  have hw : w.toNat < 65536 := w.isLt
  rw [← BitVec.toNat_inj, hop, show Opcode.trap.bits.toNat = 15 from rfl]
  omega

/-- Bits 11 to 8 are not looked at (R58, D7). -/
theorem decodeCore_of_trap (w : Word) (h : 0xF000 ≤ w.toNat) : decodeCore w = .trap (trapvect8Field w) := by
  have hop : Opcode.ofBits (opcodeField w) = .trap := by
    rw [(opcodeField_eq_trap_iff w).2 h, ofBits_bits]
  rw [decodeCore, hop]

end Sys2Proof
end

section
open Sys2Proof Sys2Proof.Machine

/-- Settles O6: the number, the signed value and the 16-bit case of an extended field. -/
theorem signExtensionIsTwosComplement : Obligations.SignExtensionIsTwosComplement :=
  ⟨fun _ v _ hn => ⟨toNat_sext v hn, toInt_sext v hn⟩, sext_word⟩

/-- Settles O7: a word of TRAP's opcode decodes to its low byte, and by the vector table, read in both
directions, a service is selected by equality with its number. -/
theorem trapVectorIsTheUnsignedLowByte : Obligations.TrapVectorIsTheUnsignedLowByte := by
  constructor
  · exact fun w hw => ⟨trapvect8Field w, decodeCore_of_trap w hw, toNat_trapvect8Field w⟩
  · intro v svc
    rw [ofVector_eq_some, ← BitVec.toNat_inj]
    cases svc <;> exact Iff.rfl

end

section
/-! SUPPORT. What an instruction does, said once. `effect` names the one change that an instruction makes in a
state and `exec_eq_outcome` ties it to `exec`; what every instruction keeps is then read off six effects and not off
26 arms. The facts about the tables of Access.lean are equations with the effect. -/

namespace Sys2Proof.Machine

/-- The one change an instruction makes. -/
inductive Effect where
  /-- A value into DR, and the flags from it (R11, R18). -/
  | writeBack (dr : Reg) (v : Word)
  /-- A word into memory (R103). -/
  | store (a v : Word)
  /-- A new `pc` (R80, R81). -/
  | jump (target : Word)
  /-- The return address into register 7 and a new `pc` (R83, R84). -/
  | call (target : Word)
  /-- Nothing: a BR not taken, RTI, RES. -/
  | idle
  /-- The service of a trap vector (R110). -/
  | trap (v : Byte)

/-- What the machine answers to an effect. -/
def Effect.outcome (s : State) : Effect → Host.Outcome State Fault Refusal
  | .writeBack dr v => .next (s.writeBack dr v)
  | .store a v => .next (s.store a v)
  | .jump target => .next (s.setPc target)
  | .call target => .next (s.link.setPc target)
  | .idle => .next s
  | .trap v => service v s

/-- The effect of an instruction in the state that the fetch left. -/
def effect (i : Instr) (s : State) : Effect :=
  match i.core with
  | .br n z p off => if brTaken n z p s.cond then .jump (s.pcRel9 off) else .idle
  | .addReg dr sr1 sr2 => .writeBack dr (alu .add (s.reg sr1) (s.reg sr2))
  | .addImm dr sr1 imm5 => .writeBack dr (alu .add (s.reg sr1) (immOperand imm5))
  | .andReg dr sr1 sr2 => .writeBack dr (alu .and (s.reg sr1) (s.reg sr2))
  | .andImm dr sr1 imm5 => .writeBack dr (alu .and (s.reg sr1) (immOperand imm5))
  | .not dr sr => .writeBack dr (alu .not (s.reg sr) (s.reg sr))
  | .ld dr off => .writeBack dr (s.load (s.pcRel9 off))
  | .ldi dr off => .writeBack dr (s.load (s.load (s.pcRel9 off)))
  | .ldr dr base off => .writeBack dr (s.load (s.baseOffset base off))
  | .lea dr off => .writeBack dr (s.pcRel9 off)
  | .st sr off => .store (s.pcRel9 off) (s.reg sr)
  | .sti sr off => .store (s.load (s.pcRel9 off)) (s.reg sr)
  | .str sr base off => .store (s.baseOffset base off) (s.reg sr)
  | .jmp base => .jump (s.reg base)
  | .jsr off => .call (s.pcRel11 off)
  | .jsrr base => .call (s.link.reg base)
  | .trap v => .trap v
  | _ => .idle

theorem effect_br (n z p : Bool) (off : BitVec 9) (s : State) :
    effect (.br n z p off) s = if brTaken n z p s.cond then .jump (s.pcRel9 off) else .idle := rfl

/-- The meaning of every instruction is its effect. -/
theorem exec_eq_outcome (i : Instr) (s : State) : exec i s = (effect i s).outcome s := by
  cases i with
  | br n z p off =>
    rw [exec, execBr, effect_br]
    split <;> rfl
  | _ => rfl

/-! ### The tables of Access.lean as equations with the effect -/

/-- The register an effect writes together with the flags. -/
def Effect.flagSetter : Effect → Option Reg
  | .writeBack dr _ => some dr
  | _ => none

/-- The register an effect writes. -/
def Effect.writtenRegister : Effect → Option Reg
  | .writeBack dr _ => some dr
  | .call _ => some Reg.link
  | .trap v => if v = Service.getc.vector ∨ v = Service.inp.vector then some 0 else none
  | _ => none

/-- The register the flags are set from is a written one (R18). -/
theorem Effect.writtenRegister_of_flagSetter {e : Effect} {dr : Reg} (h : e.flagSetter = some dr) :
    e.writtenRegister = some dr := by
  cases e with
  | writeBack => exact h
  | _ => cases h

theorem flagSetter_eq (i : Instr) (s : State) : flagSetter i = (effect i s).flagSetter := by
  cases i with
  | br n z p off =>
    rw [effect_br]
    split <;> rfl
  | _ => rfl

theorem writtenRegister_eq (i : Instr) (s : State) : writtenRegister i = (effect i s).writtenRegister := by
  cases i with
  | br n z p off =>
    rw [effect_br]
    split <;> rfl
  | _ => rfl

/-- Only TRAP and its names have a service. -/
theorem core_of_effect_eq_trap {i : Instr} {s : State} {v : Byte} (h : effect i s = .trap v) : i.core = .trap v := by
  cases i with
  | br n z p off => rw [effect_br] at h; split at h <;> cases h
  | trap _ | getc | out | puts | inp | putsp | halt => cases h; rfl
  | _ => cases h

/-- Only BR's effect depends on the flags (R19). -/
theorem effect_withCond {i : Instr} (hi : ∀ n z p off, i ≠ .br n z p off) (s : State) (c : Cond) :
    effect i { s with cond := c } = effect i s := by
  cases i with
  | br n z p off => exact absurd rfl (hi n z p off)
  | _ => rfl

end Sys2Proof.Machine
end

section
/-! SUPPORT. What a completed trap service has done, said once, and what follows of the registers, the run status
and the console. -/

namespace Sys2Proof.Machine

/-- A vector that selects no service lies outside 0x20 to 0x25 (R153, R161). -/
theorem outside_of_ofVector_eq_none {v : Byte} (h : Service.ofVector v = none) : v.toNat < 0x20 ∨ 0x25 < v.toNat := by
  have hne (svc : Service) : v.toNat ≠ svc.vector.toNat := fun e => by
    rw [ofVector_eq_some.2 (BitVec.eq_of_toNat_eq e)] at h
    cases h
  have := hne .getc; have := hne .out; have := hne .puts; have := hne .inp; have := hne .putsp; have := hne .halt
  simp only [Service.vector, BitVec.toNat_ofNat, Nat.reducePow, Nat.reduceMod] at *
  omega

/-- The console reads the same byte after an output. -/
theorem consoleIn_emit (s : State) (bs : List Byte) :
    (s.emit bs).consoleIn = s.consoleIn.map fun p => (p.1, p.2.emit bs) := by
  rcases consoleIn_cases s with ⟨b, rest, hi, e⟩ | ⟨hi, he, e⟩ | ⟨hi, he, e⟩ <;>
    simp [State.consoleIn, State.emit, *]

/-- The next states of a trap service, by its vector (R155 to R161). -/
inductive ServiceDone (s : State) : Byte → State → Prop
  | getc {c u} (h : s.consoleIn = some (c, u)) : ServiceDone s Service.getc.vector (u.setReg 0 (zext8 c))
  | inp {c u} (h : s.consoleIn = some (c, u)) :
    ServiceDone s Service.inp.vector (((u.emit Config.inPrompt).setReg 0 (zext8 c)).emit [c])
  | write {v} (bs) (h : v = Service.out.vector ∨ v = Service.puts.vector ∨ v = Service.putsp.vector) :
    ServiceDone s v (s.emit bs)
  | halt : ServiceDone s Service.halt.vector { s with status := .halted }
  | unknown {v} (h : Service.ofVector v = none) : ServiceDone s v { s with status := .failed v }

theorem serviceDone_of_next {v : Byte} {s t : State} (h : service v s = .next t) : ServiceDone s v t := by
  rw [service] at h
  cases hv : Service.ofVector v with
  | none => rw [hv] at h; cases h; exact .unknown hv
  | some svc =>
    rw [hv] at h
    obtain rfl := ofVector_eq_some.1 hv
    cases svc with
    | getc =>
      simp only [serviceGetc] at h
      cases hc : s.consoleIn with
      | none => rw [hc] at h; cases h
      | some p => rw [hc] at h; cases h; exact .getc hc
    | out => cases h; exact .write _ (.inl rfl)
    | puts =>
      simp only [servicePuts] at h
      split at h
      · cases h; exact .write _ (.inr (.inl rfl))
      · cases h
    | inp =>
      simp only [serviceIn, consoleIn_emit] at h
      cases hc : s.consoleIn with
      | none => rw [hc] at h; cases h
      | some p => rw [hc] at h; cases h; exact .inp hc
    | putsp =>
      simp only [servicePutsp] at h
      split at h
      · cases h; exact .write _ (.inr (.inr rfl))
      · cases h
    | halt => cases h; exact .halt

/-- Taking a byte keeps the registers, the run status and the output, and takes the front of the stream if
anything. -/
theorem consoleIn_streams {s u : State} {c : Byte} (h : s.consoleIn = some (c, u)) :
    u.regs = s.regs ∧ u.status = s.status ∧ u.output = s.output ∧ u.inputEnded = s.inputEnded ∧
      (u.input = s.input ∨ ∃ b, s.input = b :: u.input) := by
  rcases consoleIn_cases s with ⟨b, rest, hi, e⟩ | ⟨hi, -, e⟩ | ⟨-, -, e⟩ <;> rw [e] at h
  · cases h; exact ⟨rfl, rfl, rfl, rfl, .inr ⟨_, hi⟩⟩
  · cases h; exact ⟨rfl, rfl, rfl, rfl, .inl rfl⟩
  · cases h

/-- A service writes `x[0]` where it reads a byte, and no other register (R154, D25). -/
theorem service_reg {v : Byte} {s t : State} (h : service v s = .next t) {r : Reg}
    (hr : (Effect.trap v).writtenRegister ≠ some r) : t.reg r = s.reg r := by
  have hread {c : Byte} {u : State} (hc : s.consoleIn = some (c, u)) (h0 : some 0 ≠ some r) :
      (u.setReg 0 (zext8 c)).reg r = s.reg r := by
    obtain ⟨hregs, -⟩ := consoleIn_streams hc
    rw [State.reg_setReg_ne _ _ _ _ fun e => h0 (congrArg some e.symm), State.reg, hregs, State.reg]
  cases serviceDone_of_next h with
  | getc hc | inp hc => exact (hread hc hr :)
  | write | halt | unknown => rfl

/-- Only HALT and an unknown vector change the run status (R20). -/
theorem service_status {v : Byte} {s t : State} (h : service v s = .next t) :
    t.status = s.status ∨ (v = 0x25#8 ∧ t.status = .halted) ∨
      ((v.toNat < 0x20 ∨ 0x25 < v.toNat) ∧ t.status = .failed v) := by
  cases serviceDone_of_next h with
  | getc hc | inp hc =>
    obtain ⟨-, hst, -⟩ := consoleIn_streams hc
    exact .inl hst
  | write => exact .inl rfl
  | halt => exact .inr (.inl ⟨rfl, rfl⟩)
  | unknown hv => exact .inr (.inr ⟨outside_of_ofVector_eq_none hv, rfl⟩)

/-- A service appends to the output, and only at the four vectors 0x21 to 0x24 (R25). -/
theorem service_output {v : Byte} {s t : State} (h : service v s = .next t) :
    ∃ bs, t.output = s.output ++ bs ∧ (bs ≠ [] → 0x21 ≤ v.toNat ∧ v.toNat ≤ 0x24) := by
  have hsame (ho : t.output = s.output) :
      ∃ bs, t.output = s.output ++ bs ∧ (bs ≠ [] → 0x21 ≤ v.toNat ∧ v.toNat ≤ 0x24) :=
    ⟨[], by rw [ho, List.append_nil], fun hne => absurd rfl hne⟩
  cases serviceDone_of_next h with
  | getc hc =>
    obtain ⟨-, -, ho, -⟩ := consoleIn_streams hc
    exact hsame ho
  | @inp c u hc =>
    obtain ⟨-, -, ho, -⟩ := consoleIn_streams hc
    refine ⟨Config.inPrompt ++ [c], ?_, fun _ => by decide⟩
    rw [State.emit_output, State.setReg_output, State.emit_output, ho, List.append_assoc]
  | write bs hv => exact ⟨bs, rfl, fun _ => by rcases hv with rfl | rfl | rfl <;> decide⟩
  | halt | unknown => exact hsame rfl

/-- A service takes the front of the input stream or leaves it, and draws only at vectors 0x20 and 0x23. -/
theorem service_input {v : Byte} {s t : State} (h : service v s = .next t) :
    (t.input = s.input ∨ ∃ c, s.input = c :: t.input) ∧ t.inputEnded = s.inputEnded ∧
      (t.input ≠ s.input ∨ t.inputDraws ≠ s.inputDraws → v = 0x20#8 ∨ v = 0x23#8) := by
  cases serviceDone_of_next h with
  | getc hc =>
    obtain ⟨-, -, -, he, hi⟩ := consoleIn_streams hc
    exact ⟨hi, he, fun _ => .inl rfl⟩
  | inp hc =>
    obtain ⟨-, -, -, he, hi⟩ := consoleIn_streams hc
    exact ⟨hi, he, fun _ => .inr rfl⟩
  | write | halt | unknown => exact ⟨.inl rfl, rfl, fun hch => hch.elim (absurd rfl) (absurd rfl)⟩

end Sys2Proof.Machine
end

section
/-! SUPPORT. What an outcome says of registers, flags, `pc`, run status and console, whatever the instruction. -/

namespace Sys2Proof.Machine

/-- Only the register of the effect is written. -/
theorem Effect.reg_of_next {e : Effect} {s t : State} (h : e.outcome s = .next t) {r : Reg}
    (hr : e.writtenRegister ≠ some r) : t.reg r = s.reg r := by
  cases e with
  | trap v => exact service_reg h hr
  | writeBack dr v =>
    cases h
    rw [State.reg_writeBack, if_neg fun e => hr (congrArg some e.symm)]
  | call target =>
    cases h
    exact State.reg_setReg_ne _ _ _ _ fun e => hr (congrArg some e.symm)
  | store | jump | idle => cases h; rfl

/-- A write-back sets the flags from the register it has written. -/
theorem Effect.cond_of_flagSetter {e : Effect} {s t : State} (h : e.outcome s = .next t) {dr : Reg}
    (hdr : e.flagSetter = some dr) : t.cond = flagOf (t.reg dr) := by
  cases e with
  | writeBack d v =>
    cases hdr
    cases h
    rw [State.cond_writeBack, State.reg_writeBack, if_pos rfl]
  | _ => cases hdr

/-- Nothing but a write-back sets the flags. -/
theorem Effect.cond_of_no_flagSetter {e : Effect} {s t : State} (h : e.outcome s = .next t)
    (he : e.flagSetter = none) : t.cond = s.cond := by
  cases e with
  | writeBack => cases he
  | trap v =>
    obtain ⟨-, -, hcond, -⟩ := service_next_frame h
    exact hcond
  | store | jump | call | idle => cases h; rfl

/-- The effects that write `pc`. -/
def Effect.movesPc : Effect → Bool
  | .jump _ | .call _ => true
  | _ => false

theorem Effect.pc_of_next {e : Effect} {s t : State} (h : e.outcome s = .next t) (he : e.movesPc = false) :
    t.pc = s.pc := by
  cases e with
  | jump | call => cases he
  | trap v =>
    obtain ⟨-, hpc, -⟩ := service_next_frame h
    exact hpc
  | writeBack | store | idle => cases h; rfl

/-- Without a service the run status and the console stay. -/
theorem exec_status_console {i : Instr} {s t : State} (h : exec i s = .next t) :
    (t.status = s.status ∧ ConsoleSame s t) ∨ ∃ v, i.core = .trap v ∧ service v s = .next t := by
  rw [exec_eq_outcome] at h
  generalize he : effect i s = e at h
  cases e with
  | trap v => exact .inr ⟨v, core_of_effect_eq_trap he, h⟩
  | writeBack | store | jump | call | idle => cases h; exact .inl ⟨rfl, rfl, rfl, rfl, rfl⟩

/-- The faults of `step` itself are not among the faults of an instruction (R133, R134, U9). -/
theorem exec_fault_cases {i : Instr} {s : State} {f : Fault} (h : exec i s = .fault f) :
    (∃ held, f = .inputEnded held) ∨ f = .endlessString := by
  rw [exec_eq_outcome] at h
  generalize effect i s = e at h
  cases e with
  | trap v =>
    have hs : service v s = .fault f := h
    rcases service_cases v s with ⟨_, e, -⟩ | ⟨held, e, -⟩ | e <;> rw [e] at hs
    · cases hs
    · cases hs; exact .inl ⟨held, rfl⟩
    · cases hs; exact .inr rfl
  | writeBack | store | jump | call | idle => cases h

end Sys2Proof.Machine
end

section
/-! SUPPORT. The same outcome from other flags (R19). -/

namespace Sys2Proof.Machine

/-- An outcome with the flags of its state replaced: those of the next state, or of the state that a service
holds. -/
def withCond (c : Cond) : Host.Outcome State Fault Refusal → Host.Outcome State Fault Refusal
  | .next t => .next { t with cond := c }
  | .fault (.inputEnded h) => .fault (.inputEnded { h with cond := c })
  | o => o

theorem reg_withCond (s : State) (c : Cond) (r : Reg) : { s with cond := c }.reg r = s.reg r := rfl

theorem consoleIn_withCond (s : State) (c : Cond) :
    { s with cond := c }.consoleIn = s.consoleIn.map fun p => (p.1, { p.2 with cond := c }) := by
  rcases consoleIn_cases s with ⟨b, rest, hi, e⟩ | ⟨hi, he, e⟩ | ⟨hi, he, e⟩ <;> simp [State.consoleIn, *]

theorem service_withCond (v : Byte) (s : State) (c : Cond) :
    service v { s with cond := c } = withCond c (service v s) := by
  rw [service, service]
  cases Service.ofVector v with
  | none => rfl
  | some svc =>
    cases svc with
    | getc =>
      simp only [serviceGetc, consoleIn_withCond]
      cases s.consoleIn <;> rfl
    | inp =>
      simp only [serviceIn, consoleIn_emit, consoleIn_withCond]
      cases s.consoleIn <;> rfl
    | puts =>
      simp only [servicePuts, reg_withCond]
      cases putsBytes s.mem Config.memoryWords (s.reg 0) <;> rfl
    | putsp =>
      simp only [servicePutsp, reg_withCond]
      cases putspBytes s.mem Config.memoryWords (s.reg 0) <;> rfl
    | out | halt => rfl

/-- An effect that does not set the flags leaves them as it finds them, and nothing else depends on them. -/
theorem Effect.outcome_withCond {e : Effect} (he : e.flagSetter = none) (s : State) (c : Cond) :
    e.outcome { s with cond := c } = withCond c (e.outcome s) := by
  cases e with
  | writeBack => cases he
  | trap v => exact service_withCond v s c
  | store | jump | call | idle => rfl

end Sys2Proof.Machine
end

section
open Sys2Proof Sys2Proof.Machine

/-- Settles O47: the written register and the flag-setter of an instruction are those of its effect. -/
theorem onlyTheListedRegisterIsWritten : Obligations.OnlyTheListedRegisterIsWritten := by
  intro i s t h
  rw [exec_eq_outcome] at h
  rw [writtenRegister_eq i s, flagSetter_eq i s]
  exact ⟨fun _ hr => Effect.reg_of_next h hr, fun _ hdr => Effect.writtenRegister_of_flagSetter hdr⟩

/-- Settles O48: the seven are the instructions whose effect is a write-back. -/
theorem flagsAreWrittenByExactlySevenInstructions : Obligations.FlagsAreWrittenByExactlySevenInstructions := by
  intro i s t h
  rw [exec_eq_outcome] at h
  rw [flagSetter_eq i s]
  exact ⟨fun _ hdr => Effect.cond_of_flagSetter h hdr, Effect.cond_of_no_flagSetter h⟩

/-- Settles O49: the effect of every other instruction, and of a BR that is not taken, leaves `pc` alone. -/
theorem onlyControlTransfersWriteThePc : Obligations.OnlyControlTransfersWriteThePc := by
  intro i s t h
  rw [exec_eq_outcome] at h
  cases i with
  | br n z p off =>
    intro hb
    rw [effect_br, hb] at h
    exact Effect.pc_of_next h rfl
  | jmp | ret | jsr | jsrr => trivial
  | _ => exact Effect.pc_of_next h rfl

/-- Settles O51: a changed status is a service's. -/
theorem statusChangesOnlyByHaltOrUnknownVector : Obligations.StatusChangesOnlyByHaltOrUnknownVector := by
  intro i s t h hne
  rcases exec_status_console h with ⟨hst, -⟩ | ⟨v, hi, hs⟩
  · exact absurd hst hne
  · rcases service_status hs with hst | ⟨rfl, hst⟩ | ⟨hv, hst⟩
    · exact absurd hst hne
    · exact .inl ⟨hi, hst⟩
    · exact .inr ⟨v, hi, hv, hst⟩

/-- Settles O52: a changed console is a service's, and each stream is read off what the service has done. -/
theorem consoleStreamsOnlyMoveForward : Obligations.ConsoleStreamsOnlyMoveForward := by
  intro i s t h
  rcases exec_status_console h with ⟨-, ho, hin, hend, hdraws⟩ | ⟨v, hi, hs⟩
  · refine ⟨⟨[], by rw [ho, List.append_nil], fun hne => absurd rfl hne⟩, .inl hin, hend, fun hch => ?_⟩
    exact hch.elim (absurd hin) (absurd hdraws)
  · obtain ⟨bs, ho, hbs⟩ := service_output hs
    obtain ⟨hin, hend, hdraw⟩ := service_input hs
    refine ⟨⟨bs, ho, fun hne => ⟨v, hi, hbs hne⟩⟩, hin, hend, fun hch => ?_⟩
    rcases hdraw hch with rfl | rfl
    · exact .inl hi
    · exact .inr hi

/-- Settles O53: only BR's effect depends on the flags; a write-back overwrites them and every other outcome
carries them along. -/
theorem onlyBranchReadsTheFlags : Obligations.OnlyBranchReadsTheFlags := by
  intro i s c hi
  have hc : exec i { s with cond := c } = (effect i s).outcome { s with cond := c } := by
    rw [exec_eq_outcome, effect_withCond hi]
  rw [hc, exec_eq_outcome i s, flagSetter_eq i s]
  cases he : (effect i s).flagSetter with
  | some dr =>
    cases hw : effect i s with
    | writeBack d v => rfl
    | _ => rw [hw] at he; cases he
  | none =>
    rw [Effect.outcome_withCond he s c]
    cases (effect i s).outcome s with
    | next t => rfl
    | fault f => cases f <;> rfl
    | refused r => rfl

/-- Settles O8: the three cases of the flag function, with bit 15 read as the value's upper half. -/
theorem flagsFollowTheSignOfTheValue : Obligations.FlagsFollowTheSignOfTheValue := by
  intro v
  have hlt : v.toNat < 65536 := v.isLt
  have hsign : v.getLsbD 15 = true ↔ 0x8000 ≤ v.toNat := by
    rw [getLsbD_eq_decide, decide_eq_true_iff]
    omega
  rcases flagOf_cases v with ⟨rfl, -⟩ | ⟨-, h15, e⟩ | ⟨h0, h15, e⟩
  · decide
  · have hneg : 0x8000 ≤ v.toNat := hsign.1 h15
    simp only [e, reduceCtorEq, true_iff, false_iff]
    omega
  · have hpos : v.toNat ≠ 0 := fun hz => h0 (BitVec.eq_of_toNat_eq hz)
    have hlow : ¬0x8000 ≤ v.toNat := by rw [← hsign, h15]; decide
    simp only [e, reduceCtorEq, true_iff, false_iff]
    omega

/-- Settles O10: the reset record field by field; memory lists no cell. -/
theorem resetLeavesAZeroedRunningMachine : Obligations.ResetLeavesAZeroedRunningMachine :=
  ⟨fun r => by simp [State.reg, State.reset], rfl, rfl, rfl, read_nil, rfl, rfl, rfl⟩

/-- Settles O11: at reset no cell is listed. -/
theorem resetMemoryIsCanonical : Obligations.ResetMemoryIsCanonical := reset_mem_wf

/-- Settles O42: `step` looks at the status first, and no instruction answers with a fault of `step`'s own. -/
theorem stoppedMachineTakesNoStep : Obligations.StoppedMachineTakesNoStep := by
  intro s
  refine ⟨fun h => by rw [step, h], fun v h => by rw [step, h], fun h => ?_⟩
  have hrun : step s = exec (decode s.fetchWord) s.advance := by rw [step, h]
  rw [hrun]
  constructor
  · intro hf
    rcases exec_fault_cases hf with ⟨_, hc⟩ | hc <;> cases hc
  · intro v hf
    rcases exec_fault_cases hf with ⟨_, hc⟩ | hc <;> cases hc

end

section
/-! SUPPORT. Memory as its bytes and its words (20_memory.md R30 to R32): which cells a canonical memory lists, and
that its words determine them. -/

namespace Sys2Proof.Machine

/-! ### The two bytes of a word -/

theorem wordOfBytes_injective {hi lo hi' lo' : Byte} (h : wordOfBytes hi lo = wordOfBytes hi' lo') :
    hi = hi' ∧ lo = lo' := by
  have hnat : hi.toNat * 256 + lo.toNat = hi'.toNat * 256 + lo'.toNat := by
    simpa only [wordOfBytes, toNat_append, Nat.reducePow] using congrArg BitVec.toNat h
  have hlo := lo.isLt
  have hlo' := lo'.isLt
  constructor <;> apply BitVec.eq_of_toNat_eq <;> omega

/-- Every cell below the 65536 words is one half of a word. -/
theorem exists_word_of_cell {k : Nat} (hk : k < 2 * Config.memoryWords) :
    ∃ a : Word, k = Memory.highCell a ∨ k = Memory.lowCell a := by
  have hhalf : k / 2 < 65536 := by
    simp only [Config.memoryWords] at hk
    omega
  refine ⟨BitVec.ofNat 16 (k / 2), ?_⟩
  simp only [Memory.highCell, Memory.lowCell, BitVec.toNat_ofNat, Nat.mod_eq_of_lt hhalf]
  omega

theorem byteAt_eq_of_read_eq {m m' : Memory} (h : ∀ a, m.read a = m'.read a) {k : Nat}
    (hk : k < 2 * Config.memoryWords) : m.byteAt k = m'.byteAt k := by
  obtain ⟨a, ha⟩ := exists_word_of_cell hk
  obtain ⟨hhigh, hlow⟩ := wordOfBytes_injective (h a)
  rcases ha with rfl | rfl
  · exact hhigh
  · exact hlow

/-! ### The listed cells -/

/-- A listed cell is the only one of its address, so its byte is read there. -/
theorem byteAt_of_mem {m : Memory} (hm : m.Pairwise fun c d => c.1 < d.1) {c : Host.Cell} (hc : c ∈ m) :
    m.byteAt c.1 = c.2 := by
  induction m with
  | nil => cases hc
  | cons d m ih =>
    obtain ⟨hd, hm⟩ := List.pairwise_cons.mp hm
    rw [Memory.byteAt]
    rcases List.mem_cons.mp hc with rfl | hc
    · exact if_pos rfl
    · rw [if_neg (hd c hc).ne, ih hm hc]

theorem mem_of_byteAt_ne {m : Memory} {k : Nat} (h : m.byteAt k ≠ Memory.unlisted) : (k, m.byteAt k) ∈ m := by
  induction m with
  | nil => exact absurd rfl h
  | cons d m ih =>
    rw [Memory.byteAt] at h ⊢
    split at h
    case isTrue e => rw [if_pos e, ← e]; exact List.mem_cons_self
    case isFalse e => rw [if_neg e]; exact List.mem_cons_of_mem d (ih h)

/-- A cell of a canonical memory is listed by every memory that reads alike. -/
theorem mem_of_read_eq {m m' : Memory} (hm : m.wf) (h : ∀ a, m.read a = m'.read a) {c : Host.Cell} (hc : c ∈ m) :
    c ∈ m' := by
  obtain ⟨hsorted, hcells⟩ := hm
  obtain ⟨hlt, hlisted⟩ := hcells c hc
  have hbyte : m'.byteAt c.1 = c.2 := by rw [← byteAt_eq_of_read_eq h hlt, byteAt_of_mem hsorted hc]
  have hmem := mem_of_byteAt_ne (m := m') (k := c.1) (by rwa [hbyte])
  rwa [hbyte] at hmem

/-- Two rising lists of the same cells are one list. -/
theorem eq_of_read_eq {m m' : Memory} (hm : m.wf) (hm' : m'.wf) (h : ∀ a, m.read a = m'.read a) : m = m' := by
  have : Std.Irrefl fun c d : Host.Cell => c.1 < d.1 := ⟨fun _ => lt_irrefl _⟩
  have : Std.Antisymm fun c d : Host.Cell => c.1 < d.1 := ⟨fun _ _ hcd hdc => absurd hdc hcd.asymm⟩
  exact hm.1.eq_of_mem_iff hm'.1 fun _ => ⟨mem_of_read_eq hm h, mem_of_read_eq hm' fun a => (h a).symm⟩

end Sys2Proof.Machine
end

section
/-! SUPPORT. The address sums as numbers (R33, R57, R94, D4). -/

namespace Sys2Proof.Machine

theorem toNat_add_sext {n : Nat} (a : Word) (off : BitVec n) (hn : n ≤ 16) :
    ((alu .add a (sext off)).toNat : Int) = (a.toNat + off.toInt) % 65536 := by
  have hsum : (alu .add a (sext off)).toNat = (a.toNat + (sext off).toNat) % 65536 := BitVec.toNat_add _ _
  have hoff : off.toInt = if 2 * (sext off).toNat < 65536 then ((sext off).toNat : Int) else (sext off).toNat - 65536 := by
    rw [← toInt_sext off hn]
    exact BitVec.toInt_eq_toNat_cond _
  split at hoff <;> omega

end Sys2Proof.Machine
end

section
/-! SUPPORT. What an effect does to memory, said once: a store writes one word, and nothing else writes (R34). The
store address and the listed writes of Access.lean are equations with the effect. -/

namespace Sys2Proof.Machine

/-- The address an effect stores to. -/
def Effect.storeAddress : Effect → Option Word
  | .store a _ => some a
  | _ => none

/-- The memory an effect leaves, from the memory it finds. -/
def Effect.memAfter (m : Memory) : Effect → Memory
  | .store a v => m.write a v
  | _ => m

theorem storeAddress_eq (i : Instr) (s : State) : storeAddress i s = (effect i s).storeAddress := by
  cases i with
  | br n z p off =>
    rw [effect_br]
    split <;> rfl
  | _ => rfl

theorem Effect.mem_of_next {e : Effect} {s t : State} (h : e.outcome s = .next t) : t.mem = e.memAfter s.mem := by
  cases e with
  | trap v =>
    obtain ⟨hmem, -⟩ := service_next_frame h
    exact hmem
  | writeBack | store | jump | call | idle => cases h; rfl

theorem Effect.wf_memAfter {m : Memory} (hm : m.wf) (e : Effect) : (e.memAfter m).wf := by
  cases e with
  | store a v => exact wf_write hm a v
  | _ => exact hm

theorem Effect.memAfter_of_storeAddress_none {e : Effect} (he : e.storeAddress = none) (m : Memory) :
    e.memAfter m = m := by
  cases e with
  | store => cases he
  | _ => rfl

/-- A store leaves every byte outside its word (R32). -/
theorem Effect.memSameExcept_of_next {e : Effect} {s t : State} (h : e.outcome s = .next t) {a : Word}
    (ha : e.storeAddress = some a) : MemSameExcept [a] s t := by
  cases e with
  | store b v =>
    cases ha
    cases h
    obtain ⟨-, hmem, -⟩ := store_spec s a v
    exact hmem
  | _ => cases ha

/-! ### The listed writes -/

theorem write_not_mem_serviceAccesses (v : Byte) (s : State) (a w : Word) :
    Access.write a w ∉ serviceAccesses v s := by
  rw [serviceAccesses]
  split <;> simp

/-- The one write that R34 lists is the effect's store. -/
theorem write_mem_dataAccesses (i : Instr) (s : State) (a v : Word) :
    Access.write a v ∈ dataAccesses i s ↔ effect i s = .store a v := by
  cases i with
  | br n z p off =>
    rw [effect_br]
    split <;> simp [dataAccesses, Instr.core]
  | trap | getc | out | puts | inp | putsp | halt =>
    simp [dataAccesses, Instr.core, effect, write_not_mem_serviceAccesses]
  | st | sti | str => simp [dataAccesses, Instr.core, effect, eq_comm]
  | _ => simp [dataAccesses, Instr.core, effect]

theorem Effect.read_memAfter_store {e : Effect} {a v : Word} (he : e = .store a v) (m : Memory) :
    (e.memAfter m).read a = v := by
  subst he
  exact read_write_self m a v

theorem Effect.read_memAfter_of_not_store {e : Effect} {a : Word} (he : ∀ v, e ≠ .store a v) (m : Memory) :
    (e.memAfter m).read a = m.read a := by
  cases e with
  | store b v =>
    have hab : a ≠ b := fun h => he v (h ▸ rfl)
    exact read_write_ne m v hab
  | _ => rfl

end Sys2Proof.Machine
end

section
/-! SUPPORT. The same outcome from another memory that agrees on the words R34 lists as read. -/

namespace Sys2Proof.Machine

/-- An outcome with the memory of its state replaced: that of the next state, or of the state that a service
holds. -/
def withMem (m : Memory) : Host.Outcome State Fault Refusal → Host.Outcome State Fault Refusal
  | .next t => .next { t with mem := m }
  | .fault (.inputEnded h) => .fault (.inputEnded { h with mem := m })
  | o => o

theorem reg_withMem (s : State) (m : Memory) (r : Reg) : { s with mem := m }.reg r = s.reg r := rfl

theorem consoleIn_withMem (s : State) (m : Memory) :
    { s with mem := m }.consoleIn = s.consoleIn.map fun p => (p.1, { p.2 with mem := m }) := by
  rcases consoleIn_cases s with ⟨b, rest, hi, e⟩ | ⟨hi, he, e⟩ | ⟨hi, he, e⟩ <;> simp [State.consoleIn, *]

/-- PUTS depends on the words up to the one that ends its string (R157). -/
theorem putsBytes_congr {m m' : Memory} {fuel : Nat} {a : Word} (h : ∀ b ∈ putsReads m fuel a, m'.read b = m.read b) :
    putsBytes m' fuel a = putsBytes m fuel a := by
  induction fuel generalizing a with
  | zero => rfl
  | succ fuel ih =>
    rw [putsReads] at h
    rw [putsBytes, putsBytes]
    split at h
    case isTrue h0 => rw [h a List.mem_cons_self, if_pos h0, if_pos h0]
    case isFalse h0 => rw [h a List.mem_cons_self, ih fun b hb => h b (List.mem_cons_of_mem a hb)]

/-- PUTSP depends on the words up to the one that ends its string (R159). -/
theorem putspBytes_congr {m m' : Memory} {fuel : Nat} {a : Word} (h : ∀ b ∈ putspReads m fuel a, m'.read b = m.read b) :
    putspBytes m' fuel a = putspBytes m fuel a := by
  induction fuel generalizing a with
  | zero => rfl
  | succ fuel ih =>
    rw [putspReads] at h
    rw [putspBytes, putspBytes]
    split at h
    case isTrue h0 =>
      rw [h a List.mem_cons_self]
      rcases h0 with hl | hh
      · rw [if_pos hl, if_pos hl]
      · rw [if_pos hh, if_pos hh]
    case isFalse h0 => rw [h a List.mem_cons_self, ih fun b hb => h b (List.mem_cons_of_mem a hb)]

theorem service_withMem {v : Byte} {s : State} {m : Memory}
    (h : ∀ a, Access.read a ∈ serviceAccesses v s → m.read a = s.load a) :
    service v { s with mem := m } = withMem m (service v s) := by
  rw [serviceAccesses] at h
  rw [service, service]
  cases hv : Service.ofVector v with
  | none => rfl
  | some svc =>
    rw [hv] at h
    cases svc with
    | getc =>
      simp only [serviceGetc, consoleIn_withMem]
      cases s.consoleIn <;> rfl
    | inp =>
      simp only [serviceIn, consoleIn_emit, consoleIn_withMem]
      cases s.consoleIn <;> rfl
    | puts =>
      have hb := putsBytes_congr fun b hb => h b (List.mem_map_of_mem hb)
      simp only [servicePuts, reg_withMem, hb]
      cases putsBytes s.mem Config.memoryWords (s.reg 0) <;> rfl
    | putsp =>
      have hb := putspBytes_congr fun b hb => h b (List.mem_map_of_mem hb)
      simp only [servicePutsp, reg_withMem, hb]
      cases putspBytes s.mem Config.memoryWords (s.reg 0) <;> rfl
    | out | halt => rfl

/-- An effect depends on memory by the words its instruction reads. -/
theorem effect_withMem {i : Instr} {s : State} {m : Memory}
    (h : ∀ a, Access.read a ∈ dataAccesses i s → m.read a = s.load a) :
    effect i { s with mem := m } = effect i s := by
  cases i with
  | ld dr off => exact congrArg (Effect.writeBack dr) (h _ List.mem_cons_self)
  | ldr dr base off => exact congrArg (Effect.writeBack dr) (h _ List.mem_cons_self)
  | ldi dr off =>
    have hptr : m.read (s.pcRel9 off) = s.load (s.pcRel9 off) := h _ List.mem_cons_self
    have hdata : m.read (s.load (s.pcRel9 off)) = s.load (s.load (s.pcRel9 off)) :=
      h _ (List.mem_cons_of_mem _ List.mem_cons_self)
    show Effect.writeBack dr (m.read (m.read (s.pcRel9 off))) = _
    rw [hptr, hdata]
    rfl
  | sti sr off => exact congrArg (Effect.store · (s.reg sr)) (h _ List.mem_cons_self)
  | _ => rfl

/-- The service of a trap reads what its instruction is listed to read. -/
theorem dataAccesses_of_trap {i : Instr} {s : State} {v : Byte} (h : effect i s = .trap v) :
    dataAccesses i s = serviceAccesses v s := by
  rw [dataAccesses, core_of_effect_eq_trap h]

theorem exec_withMem {i : Instr} {s : State} {m : Memory}
    (h : ∀ a, Access.read a ∈ dataAccesses i s → m.read a = s.load a) :
    exec i { s with mem := m } = withMem ((effect i s).memAfter m) (exec i s) := by
  rw [exec_eq_outcome, exec_eq_outcome, effect_withMem h]
  cases he : effect i s with
  | trap v =>
    rw [dataAccesses_of_trap he] at h
    exact service_withMem h
  | writeBack | store | jump | call | idle => rfl

/-- An instruction that does not complete has written nothing. -/
theorem Effect.memAfter_of_fault {e : Effect} {s : State} {f : Fault} (h : e.outcome s = .fault f) (m : Memory) :
    e.memAfter m = m := by
  cases e with
  | trap => rfl
  | writeBack | store | jump | call | idle => cases h

end Sys2Proof.Machine
end

section
/-! SUPPORT. The step as the instruction it runs (R121), and the step after a store over the next instruction. -/

namespace Sys2Proof.Machine

theorem step_of_running {s : State} (h : s.status = .running) : step s = exec (decode s.fetchWord) s.advance := by
  rw [step, h]

theorem running_of_step_next {s t : State} (h : step s = .next t) : s.status = .running := by
  rw [step] at h
  cases hs : s.status with
  | running => rfl
  | halted | failed => rw [hs] at h; cases h

/-- The stored word is fetched at once (R43, D21). -/
theorem step_after_store_next {s : State} (hs : s.status = .running) (v : Word) :
    step (s.advance.store (s.pc + 1#16) v) =
      exec (decode v) { s.advance.store (s.pc + 1#16) v with pc := s.pc + 2#16 } := by
  have hfetch : (s.advance.store (s.pc + 1#16) v).fetchWord = v := read_write_self _ _ _
  have hpc : s.pc + 1#16 + 1#16 = s.pc + 2#16 := BitVec.add_assoc _ _ _
  have hadvance : (s.advance.store (s.pc + 1#16) v).advance =
      { s.advance.store (s.pc + 1#16) v with pc := s.pc + 2#16 } := by
    rw [State.advance, State.store_pc, State.advance_pc, hpc, State.setPc]
  have hrun : (s.advance.store (s.pc + 1#16) v).status = .running := hs
  rw [step_of_running hrun, hfetch, hadvance]

end Sys2Proof.Machine
end

section
open Sys2Proof Sys2Proof.Machine

/-- Settles O12: a step's memory is the one its effect leaves, which is canonical as the one before. -/
theorem stepKeepsMemoryCanonical : Obligations.StepKeepsMemoryCanonical := by
  intro s t hs h
  rw [step_of_running (running_of_step_next h), exec_eq_outcome] at h
  rw [State.Inv, Effect.mem_of_next h]
  exact Effect.wf_memAfter hs _

/-- Settles O13: the words give the bytes, and the bytes the listed cells. -/
theorem canonicalMemoriesThatReadAlikeAreEqual : Obligations.CanonicalMemoriesThatReadAlikeAreEqual :=
  fun _ _ => eq_of_read_eq

/-- Settles O19: each of the three addresses is one signed sum. -/
theorem addressesAreSignedSumsModulo65536 : Obligations.AddressesAreSignedSumsModulo65536 :=
  fun _ o6 o9 o11 _ =>
    ⟨toNat_add_sext _ o9 (by decide), toNat_add_sext _ o11 (by decide), toNat_add_sext _ o6 (by decide)⟩

/-- Settles O45: each of the three stores has the effect of storing SR over the next instruction. -/
theorem storedWordIsTheNextInstruction : Obligations.StoredWordIsTheNextInstruction := by
  intro s t i sr hs hi hcases h
  have heffect : effect i s.advance = .store (s.pc + 1#16) (s.reg sr) := by
    rcases hcases with ⟨off, rfl, ha⟩ | ⟨off, rfl, ha⟩ | ⟨base, off, rfl, ha⟩ <;>
      exact congrArg (Effect.store · (s.reg sr)) ha
  have hfetch : decode s.fetchWord = i := hi
  rw [step_of_running hs, hfetch, exec_eq_outcome, heffect] at h
  cases h
  exact step_after_store_next hs (s.reg sr)

/-- Settles O50: the store address of an instruction is that of its effect. -/
theorem onlyStoresWriteMemory : Obligations.OnlyStoresWriteMemory := by
  intro i s t h
  rw [exec_eq_outcome] at h
  rw [storeAddress_eq]
  refine ⟨fun _ ha => Effect.memSameExcept_of_next h ha, fun hnone => memSameExcept_of_mem_eq ?_⟩
  rw [Effect.mem_of_next h, Effect.memAfter_of_storeAddress_none hnone]

/-- Settles O54: the outcome from the other memory is the same but for the memory the effect leaves, and of that
only the word of a store differs from the memory before. -/
theorem instructionsReadAndWriteOnlyTheListedWords : Obligations.InstructionsReadAndWriteOnlyTheListedWords := by
  intro i s m hreads
  rw [exec_withMem hreads]
  simp only [write_mem_dataAccesses]
  cases ho : exec i s with
  | next t =>
    have hmem : t.mem = (effect i s).memAfter s.mem := Effect.mem_of_next (by rw [← exec_eq_outcome, ho])
    refine ⟨_, rfl, rfl, fun a v hw => ?_, fun a hw => ?_⟩
    · exact ⟨by rw [State.load, hmem, Effect.read_memAfter_store hw], Effect.read_memAfter_store hw m⟩
    · exact ⟨by rw [State.load, hmem, Effect.read_memAfter_of_not_store hw, State.load],
        Effect.read_memAfter_of_not_store hw m⟩
  | fault f =>
    rw [Effect.memAfter_of_fault (by rw [← exec_eq_outcome, ho])]
    cases f <;> rfl
  | refused r => rfl

/-- Settles O9: the store's own frame, and one law for the read of any word after it. -/
theorem storedWordIsReadAndNoOtherChanges : Obligations.StoredWordIsReadAndNoOtherChanges := by
  intro s a v
  obtain ⟨hload, hmem, -⟩ := store_spec s a v
  exact ⟨hload, hload, hmem, fun b hb => by rw [load_store, if_neg hb]⟩

end

section
/-! SUPPORT. The decoder (30_encoding.md R62): its variants, and that it reads the fields of the used bits and no
other bit (R58). -/

namespace Sys2Proof

/-! ### The variants -/

/-- The opcode of the decoded variant is the word's own (R56). -/
theorem bits_opcode_decodeCore (w : Word) : (decodeCore w).opcode.bits = opcodeField w := by
  have hop : (decodeCore w).opcode = Opcode.ofBits (opcodeField w) := by
    rw [decodeCore]
    cases Opcode.ofBits (opcodeField w) with
    | add | and | jsr => dsimp only; split <;> rfl
    | _ => rfl
  rw [hop, bits_ofBits]

theorem le_of_decodeCore_eq_trap {w : Word} {v : Byte} (h : decodeCore w = .trap v) : 0xF000 ≤ w.toNat := by
  rw [← opcodeField_eq_trap_iff, ← bits_opcode_decodeCore, h, Instr.opcode]

/-- R62 answers no second name. -/
theorem core_decodeCore (w : Word) : (decodeCore w).core = decodeCore w := by
  rw [decodeCore]
  cases Opcode.ofBits (opcodeField w) with
  | add | and | jsr => dsimp only; split <;> rfl
  | _ => rfl

theorem core_decode (w : Word) : (decode w).core = decodeCore w := by
  rw [decode, core_named, core_decodeCore]

/-! ### The used fields -/

/-- The fields of R47 to R55 that take part in decoding, each by its lowest bit and its width. -/
def Instr.usedFields : Instr → List (Nat × Nat)
  | .br _ _ _ _ => [(12, 4), (11, 1), (10, 1), (9, 1), (0, 9)]
  | .addReg _ _ _ | .andReg _ _ _ => [(12, 4), (9, 3), (6, 3), (5, 1), (0, 3)]
  | .addImm _ _ _ | .andImm _ _ _ => [(12, 4), (9, 3), (6, 3), (5, 1), (0, 5)]
  | .ld _ _ | .st _ _ | .ldi _ _ | .sti _ _ | .lea _ _ => [(12, 4), (9, 3), (0, 9)]
  | .jsr _ => [(12, 4), (11, 1), (0, 11)]
  | .jsrr _ => [(12, 4), (11, 1), (6, 3)]
  | .ldr _ _ _ | .str _ _ _ => [(12, 4), (9, 3), (6, 3), (0, 6)]
  | .rti | .res => [(12, 4)]
  | .not _ _ => [(12, 4), (9, 3), (6, 3)]
  | .jmp _ | .ret => [(12, 4), (6, 3)]
  | .trap _ | .getc | .out | .puts | .inp | .putsp | .halt => [(12, 4), (0, 8)]

theorem opcode_mem_usedFields (i : Instr) : (12, 4) ∈ i.usedFields := by
  cases i <;> exact List.mem_cons_self

/-- Two words hold the same in each of the fields. -/
def SameFields (fs : List (Nat × Nat)) (w w' : Word) : Prop :=
  ∀ f ∈ fs, w'.extractLsb' f.1 f.2 = w.extractLsb' f.1 f.2

theorem reg11to9_eq_iff {w w' : Word} : reg11to9 w' = reg11to9 w ↔ w'.extractLsb' 9 3 = w.extractLsb' 9 3 :=
  BitVec.toFin_inj
theorem reg8to6_eq_iff {w w' : Word} : reg8to6 w' = reg8to6 w ↔ w'.extractLsb' 6 3 = w.extractLsb' 6 3 :=
  BitVec.toFin_inj
theorem reg2to0_eq_iff {w w' : Word} : reg2to0 w' = reg2to0 w ↔ w'.extractLsb' 0 3 = w.extractLsb' 0 3 :=
  BitVec.toFin_inj

/-- A field of one bit is that bit. -/
theorem extractLsb'_one_eq_iff {w w' : Word} {k : Nat} :
    w'.extractLsb' k 1 = w.extractLsb' k 1 ↔ w'.getLsbD k = w.getLsbD k := by
  constructor
  · intro h
    simpa using congrArg (BitVec.getLsbD · 0) h
  · intro h
    apply BitVec.eq_of_getLsbD_eq
    intro j hj
    obtain rfl : j = 0 := by omega
    simpa using h

/-- Within one opcode the variant is given by the form bit, if there is one, and the operand fields. -/
theorem decodeCore_eq_iff_of_opcodeField_eq {w w' : Word} (hop : opcodeField w' = opcodeField w) :
    decodeCore w' = decodeCore w ↔ SameFields (decodeCore w).usedFields w w' := by
  have hop' : w'.extractLsb' 12 4 = w.extractLsb' 12 4 := hop
  simp only [decodeCore, hop, SameFields]
  cases Opcode.ofBits (opcodeField w) with
  | br => simp [Instr.usedFields, hop', extractLsb'_one_eq_iff, pcOffset9Field]
  | add | and =>
    cases hb : w.getLsbD 5 <;> cases hb' : w'.getLsbD 5 <;>
      simp [-BitVec.getLsbD_eq_getElem, Instr.usedFields, hop', extractLsb'_one_eq_iff, hb, hb', reg11to9_eq_iff,
        reg8to6_eq_iff, reg2to0_eq_iff, imm5Field]
  | jsr =>
    cases hb : w.getLsbD 11 <;> cases hb' : w'.getLsbD 11 <;>
      simp [-BitVec.getLsbD_eq_getElem, Instr.usedFields, hop', extractLsb'_one_eq_iff, hb, hb', reg8to6_eq_iff,
        pcOffset11Field]
  | ld | st | ldi | sti | lea => simp [Instr.usedFields, hop', reg11to9_eq_iff, pcOffset9Field]
  | ldr | str => simp [Instr.usedFields, hop', reg11to9_eq_iff, reg8to6_eq_iff, offset6Field]
  | not | jmp => simp [Instr.usedFields, hop', reg11to9_eq_iff, reg8to6_eq_iff]
  | rti | res => simp [Instr.usedFields, hop']
  | trap => simp [Instr.usedFields, hop', trapvect8Field]

/-- Two words decode alike exactly where they hold the same in the used fields. -/
theorem decodeCore_eq_iff {w w' : Word} :
    decodeCore w' = decodeCore w ↔ SameFields (decodeCore w).usedFields w w' := by
  by_cases hop : opcodeField w' = opcodeField w
  · exact decodeCore_eq_iff_of_opcodeField_eq hop
  · refine iff_of_false (fun h => hop ?_) fun h => hop (h _ (opcode_mem_usedFields _))
    rw [← bits_opcode_decodeCore, h, bits_opcode_decodeCore]

end Sys2Proof
end

section
/-! SUPPORT. The mask of the used bits (R58, D7) as the fields it is made of. -/

namespace Sys2Proof

/-- Two words agree under a mask where they agree on each bit of it. -/
theorem and_eq_and_iff {w w' m : Word} :
    w' &&& m = w &&& m ↔ ∀ k, m.getLsbD k = true → w'.getLsbD k = w.getLsbD k := by
  constructor
  · intro h k hk
    simpa [hk] using congrArg (BitVec.getLsbD · k) h
  · intro h
    apply BitVec.eq_of_getLsbD_eq
    intro k _
    cases hk : m.getLsbD k with
    | false => simp [hk]
    | true => simp [h k hk]

theorem and_or_eq_iff {w w' m n : Word} :
    w' &&& (m ||| n) = w &&& (m ||| n) ↔ w' &&& m = w &&& m ∧ w' &&& n = w &&& n := by
  simp only [and_eq_and_iff, BitVec.getLsbD_or, Bool.or_eq_true, or_imp, forall_and]

/-- The word with ones in one field. -/
def fieldMask (f : Nat × Nat) : Word := (BitVec.allOnes f.2).setWidth 16 <<< f.1

theorem getLsbD_fieldMask (f : Nat × Nat) (k : Nat) :
    (fieldMask f).getLsbD k = true ↔ k < 16 ∧ f.1 ≤ k ∧ k < f.1 + f.2 := by
  simp only [fieldMask, BitVec.getLsbD_shiftLeft, BitVec.getLsbD_setWidth, BitVec.getLsbD_allOnes, Bool.and_eq_true,
    Bool.not_eq_true', decide_eq_true_eq, decide_eq_false_iff_not]
  omega

theorem and_fieldMask_eq_iff {w w' : Word} {f : Nat × Nat} :
    w' &&& fieldMask f = w &&& fieldMask f ↔ w'.extractLsb' f.1 f.2 = w.extractLsb' f.1 f.2 := by
  rw [and_eq_and_iff]
  constructor
  · intro h
    apply BitVec.eq_of_getLsbD_eq
    intro k hk
    simp only [BitVec.getLsbD_extractLsb', hk, decide_true, Bool.true_and]
    by_cases h16 : f.1 + k < 16
    · exact h (f.1 + k) ((getLsbD_fieldMask f _).2 (by omega))
    · rw [BitVec.getLsbD_of_ge _ _ (Nat.le_of_not_lt h16), BitVec.getLsbD_of_ge _ _ (Nat.le_of_not_lt h16)]
  · intro h k hk
    obtain ⟨-, hlo, hhi⟩ := (getLsbD_fieldMask f k).1 hk
    have hbit := congrArg (BitVec.getLsbD · (k - f.1)) h
    simpa only [BitVec.getLsbD_extractLsb', show k - f.1 < f.2 by omega, decide_true, Bool.true_and,
      Nat.add_sub_cancel' hlo] using hbit

theorem usedBits_eq_fieldMasks (i : Instr) : usedBits i = (i.usedFields.map fieldMask).foldr (· ||| ·) 0#16 := by
  cases i <;> rfl

/-- Two words agree on the used bits exactly where they hold the same in the used fields. -/
theorem and_usedBits_eq_iff {w w' : Word} (i : Instr) :
    w' &&& usedBits i = w &&& usedBits i ↔ SameFields i.usedFields w w' := by
  rw [usedBits_eq_fieldMasks, SameFields]
  induction i.usedFields with
  | nil => simp
  | cons f fs ih =>
    rw [List.map_cons, List.foldr_cons, and_or_eq_iff, and_fieldMask_eq_iff, ih, List.forall_mem_cons]

/-- A name uses the bits of its core. -/
theorem usedBits_core (i : Instr) : usedBits i.core = usedBits i := by cases i <;> rfl

/-- R58: the used bits of a word, and they alone, give its variant. -/
theorem decodeCore_eq_iff_agree {w w' : Word} :
    decodeCore w' = decodeCore w ↔ w' &&& usedBits (decode w) = w &&& usedBits (decode w) := by
  rw [← usedBits_core, core_decode, and_usedBits_eq_iff, decodeCore_eq_iff]

end Sys2Proof
end

section
/-! SUPPORT. The two spellings (R64, log entry 22): which instructions are names. -/

namespace Sys2Proof
open Sys2Proof.Machine

/-- The service table has the six vectors 0x20 to 0x25 (R153, R161). -/
theorem ofVector_eq_none_iff {v : Byte} : Service.ofVector v = none ↔ v.toNat < 0x20 ∨ 0x25 < v.toNat := by
  refine ⟨outside_of_ofVector_eq_none, fun hv => ?_⟩
  cases h : Service.ofVector v with
  | none => rfl
  | some svc =>
    obtain rfl := ofVector_eq_some.1 h
    cases svc <;> revert hv <;> decide

theorem wf_named (i : Instr) : i.named.wf = true := by
  cases i with
  | jmp base => by_cases h : base = Reg.link <;> simp [Instr.named, h, Instr.wf]
  | trap v =>
    rw [Instr.named]
    cases h : Service.ofVector v with
    | some svc => cases svc <;> rfl
    | none => simpa [Instr.wf] using ofVector_eq_none_iff.1 h
  | _ => rfl

/-- A well-formed instruction is the name of its core. -/
theorem named_core {i : Instr} (h : i.wf = true) : i.core.named = i := by
  cases i with
  | jmp base => exact if_neg (by simpa [Instr.wf] using h)
  | trap v =>
    have hv : Service.ofVector v = none := ofVector_eq_none_iff.2 (by simpa [Instr.wf] using h)
    show (Instr.trap v).named = _
    rw [Instr.named, hv]
  | _ => rfl

end Sys2Proof
end

section
open Sys2Proof Sys2Proof.Machine

/-- Settles O3: each field of a laid-out word is read past the fields below it. BR's mask bits stand in the word as
one-bit fields and in the variant as truth values. -/
theorem formatWordsDecodeWhateverTheUnusedBits : Obligations.FormatWordsDecodeWhateverTheUnusedBits := by
  intro r q u n z p i5 o6 u6 o9 o11 v u2 u3 u4 u12
  refine ⟨?br, ?_, ?_, ?_, ?_, ?_, ?_, ?_, ?_, ?_, ?_, ?_, ?_, ?_, ?_, ?_, ?_, ?_, ?_⟩
  all_goals
    simp (disch := decide) only [decodeCore, opcodeField, reg11to9, reg8to6, reg2to0, imm5Field, offset6Field,
      pcOffset9Field, pcOffset11Field, trapvect8Field, BitVec.extractLsb'_append_eq_of_le,
      BitVec.extractLsb'_append_eq_of_add_le, BitVec.extractLsb'_eq_self, BitVec.getLsbD_append, Nat.reduceSub,
      Nat.reduceLT, if_true, if_false]
  case br => cases n <;> cases z <;> cases p <;> rfl
  all_goals rfl

end

section
/-! SUPPORT. The encoder's words as words of the format tables (R47 to R55). -/

namespace Sys2Proof

/-- The encoder writes a form bit 0 and the two unused bits below it as one field of three zeros. -/
theorem append_zeros {n : Nat} (x : BitVec n) : x ++ 0#1 ++ 0#2 = x ++ 0#3 := by
  apply BitVec.eq_of_toNat_eq
  simp only [toNat_append, BitVec.toNat_zero]
  omega

theorem decodeCore_encode (i : Instr) : decodeCore (encode i) = i.core := by
  have hformats := formatWordsDecodeWhateverTheUnusedBits
  simp only [Obligations.FormatWordsDecodeWhateverTheUnusedBits, forall_and, forall_const] at hformats
  obtain ⟨hbr, haddReg, haddImm, hld, hst, hjsr, hjsrr, handReg, handImm, hldr, hstr, hrti, hnot, hldi, hsti, hjmp,
    hres, hlea, htrap⟩ := hformats
  cases i with
  | br n z p off => exact hbr n z p off
  | addReg dr sr1 sr2 =>
    have h := haddReg dr sr1 sr2 0#2
    rw [append_zeros] at h
    exact h
  | addImm dr sr1 imm => exact haddImm dr sr1 imm
  | ld dr off => exact hld dr off
  | st sr off => exact hst sr off
  | jsr off => exact hjsr off
  | jsrr base =>
    have h := hjsrr base 0#6 0#2
    rw [append_zeros] at h
    exact h
  | andReg dr sr1 sr2 =>
    have h := handReg dr sr1 sr2 0#2
    rw [append_zeros] at h
    exact h
  | andImm dr sr1 imm => exact handImm dr sr1 imm
  | ldr dr base off => exact hldr dr base off
  | str sr base off => exact hstr sr base off
  | rti => exact hrti 0#12
  | not dr sr => exact hnot dr sr 0b111111#6
  | ldi dr off => exact hldi dr off
  | sti sr off => exact hsti sr off
  | jmp base => exact hjmp base 0#6 0#3
  | ret => exact hjmp Reg.link 0#6 0#3
  | res => exact hres 0#12
  | lea dr off => exact hlea dr off
  | trap v => exact htrap v 0#4
  | getc => exact htrap Service.getc.vector 0#4
  | out => exact htrap Service.out.vector 0#4
  | puts => exact htrap Service.puts.vector 0#4
  | inp => exact htrap Service.inp.vector 0#4
  | putsp => exact htrap Service.putsp.vector 0#4
  | halt => exact htrap Service.halt.vector 0#4

end Sys2Proof
end

section
open Sys2Proof Sys2Proof.Machine

/-- Settles O1: an encoded word decodes to the core, and the core is written by the instruction's own name. -/
theorem encodeThenDecodeGivesTheInstruction : Obligations.EncodeThenDecodeGivesTheInstruction := by
  intro i hi
  rw [decode, decodeCore_encode, named_core hi]

/-- Settles O2: words decode alike exactly where they agree on the used bits, and the decoded instruction's own
word decodes as the word does. -/
theorem decodeDependsOnTheUsedBitsOnly : Obligations.DecodeDependsOnTheUsedBitsOnly := by
  intro w
  refine ⟨wf_named _, ?_, fun w' hw' => ?_⟩
  · rw [← decodeCore_eq_iff_agree, decodeCore_encode, core_decode]
  · rw [decode, decodeCore_eq_iff_agree.2 hw', decode]

/-- Settles O4: the decoder runs on the seven words. -/
theorem wordsOfTheSpecDecode : Obligations.WordsOfTheSpecDecode := by
  unfold Obligations.WordsOfTheSpecDecode
  decide

/-- Settles O5: an instruction has its core's effect. -/
theorem secondNamesMeanTheirCoreInstruction : Obligations.SecondNamesMeanTheirCoreInstruction := by
  refine ⟨fun i s => ?_, core_decode⟩
  have heffect : effect i s = effect i.core s := by rw [effect, effect, core_core]
  rw [exec_eq_outcome, heffect, ← exec_eq_outcome]

/-- Settles O43: a service is the one effect that may not complete or may stop the machine, and only a TRAP word
has it. -/
theorem everyWordButTrapExecutes : Obligations.EveryWordButTrapExecutes := by
  intro s hs hw
  rw [step_of_running hs, exec_eq_outcome]
  cases he : effect (decode s.fetchWord) s.advance with
  | trap v =>
    have hcore : decodeCore s.fetchWord = .trap v := by rw [← core_decode, core_of_effect_eq_trap he]
    exact absurd hw (Nat.not_lt.2 (le_of_decodeCore_eq_trap hcore))
  | writeBack | store | jump | call | idle => exact ⟨_, rfl, hs⟩

end

section
/-! SUPPORT. The operate instructions (40_operate.md R70 to R75): a write-back completes and has its frame, and what
the alu puts on each bit. -/

namespace Sys2Proof.Machine

/-- An instruction whose effect is a write-back completes: the value in DR, the flags from it, and nothing else. -/
theorem exec_next_of_effect_writeBack {i : Instr} {s : State} {dr : Reg} {v : Word}
    (h : effect i s = .writeBack dr v) :
    ∃ t, exec i s = .next t ∧ t.reg dr = v ∧ t.cond = flagOf (t.reg dr) ∧ RegsSameExcept [dr] s t ∧ t.pc = s.pc ∧
      t.status = s.status ∧ MemSameExcept [] s t ∧ ConsoleSame s t :=
  ⟨s.writeBack dr v, by rw [exec_eq_outcome, h, Effect.outcome], writeBack_spec s dr v⟩

theorem toNat_alu_add (a b : Word) : (alu .add a b).toNat = (a.toNat + b.toNat) % 65536 := BitVec.toNat_add a b

theorem getLsbD_alu_and (a b : Word) (k : Nat) : (alu .and a b).getLsbD k = (a.getLsbD k && b.getLsbD k) :=
  BitVec.getLsbD_and

/-- The exclusive or with all ones inverts each of the sixteen bits (R74). -/
theorem getLsbD_alu_not (a b : Word) {k : Nat} (hk : k < 16) : (alu .not a b).getLsbD k = !a.getLsbD k := by
  have hones : (0xFFFF#16).getLsbD k = true := by
    rw [show 0xFFFF#16 = BitVec.allOnes 16 from rfl, BitVec.getLsbD_allOnes, decide_eq_true hk]
  rw [alu, BitVec.getLsbD_xor, hones, Bool.xor_true]

/-- A bit of a sign-extended field is the field's bit at that place, and the field's top bit above it (R4). -/
theorem getLsbD_sext {n k : Nat} (v : BitVec n) (hk : k < 16) : (sext v).getLsbD k = v.getLsbD (min k (n - 1)) := by
  rw [sext, BitVec.getLsbD_signExtend, decide_eq_true hk, Bool.true_and, BitVec.msb_eq_getLsbD_last]
  split
  · rw [Nat.min_eq_left (by omega)]
  · rw [Nat.min_eq_right (by omega)]

end Sys2Proof.Machine
end

section
open Sys2Proof Sys2Proof.Machine

/-- Settles O14: the word is a line of the format table, and the effect is the write-back of the alu's sum. -/
theorem addRegisterAddsModulo65536 : Obligations.AddRegisterAddsModulo65536 := by
  intro dr sr1 sr2
  refine ⟨fun u2 => ?_, fun s => ?_⟩
  · obtain ⟨-, hcore, -⟩ :=
      formatWordsDecodeWhateverTheUnusedBits dr sr1 sr2 false false false 0 0 0 0 0 0 u2 0 0 0
    exact congrArg Instr.named hcore
  · obtain ⟨t, hexec, hreg, hframe⟩ := exec_next_of_effect_writeBack (i := .addReg dr sr1 sr2) (s := s) rfl
    exact ⟨t, hexec, by rw [hreg, toNat_alu_add], hframe⟩

/-- Settles O15: the word is a line of the format table, and the sum is one of a word and a sign-extended field. -/
theorem addImmediateAddsTheSignedImmediate : Obligations.AddImmediateAddsTheSignedImmediate := by
  intro dr sr1 imm5
  refine ⟨?_, fun s => ?_⟩
  · obtain ⟨-, -, hcore, -⟩ :=
      formatWordsDecodeWhateverTheUnusedBits dr sr1 0 false false false imm5 0 0 0 0 0 0 0 0 0
    exact congrArg Instr.named hcore
  · obtain ⟨t, hexec, hreg, hframe⟩ := exec_next_of_effect_writeBack (i := .addImm dr sr1 imm5) (s := s) rfl
    exact ⟨t, hexec, by rw [hreg, immOperand, toNat_add_sext _ _ (by decide)], hframe⟩

/-- Settles O16: the effect is the write-back of the alu's AND. -/
theorem andRegisterIsBitwise : Obligations.AndRegisterIsBitwise := by
  intro dr sr1 sr2 s
  obtain ⟨t, hexec, hreg, hframe⟩ := exec_next_of_effect_writeBack (i := .andReg dr sr1 sr2) (s := s) rfl
  exact ⟨t, hexec, fun k _ => by rw [hreg, getLsbD_alu_and], hframe⟩

/-- Settles O17: the alu's AND, with the bits of the sign-extended immediate. -/
theorem andImmediateIsBitwiseWithTheSignedImmediate : Obligations.AndImmediateIsBitwiseWithTheSignedImmediate := by
  intro dr sr1 imm5 s
  obtain ⟨t, hexec, hreg, hframe⟩ := exec_next_of_effect_writeBack (i := .andImm dr sr1 imm5) (s := s) rfl
  exact ⟨t, hexec, fun k hk => by rw [hreg, getLsbD_alu_and, immOperand, getLsbD_sext imm5 hk], hframe⟩

/-- Settles O18: the alu's NOT inverts each bit. -/
theorem notInvertsEveryBit : Obligations.NotInvertsEveryBit := by
  intro dr sr s
  obtain ⟨t, hexec, hreg, hframe⟩ := exec_next_of_effect_writeBack (i := .not dr sr) (s := s) rfl
  exact ⟨t, hexec, fun k hk => by rw [hreg, getLsbD_alu_not _ _ hk], hframe⟩

end

section
/-! SUPPORT. Control transfer (41_control.md R80 to R85): a jump, a call and an idle step complete, each with its
frame, and BR's test as a statement about the flags. -/

namespace Sys2Proof.Machine

/-- BR's test: the flag that the machine holds is in the mask (R80). -/
theorem brTaken_iff (n z p : Bool) (c : Cond) :
    brTaken n z p c = true ↔ n = true ∧ c = .negative ∨ z = true ∧ c = .zero ∨ p = true ∧ c = .positive := by
  simp only [brTaken, Bool.or_eq_true, Bool.and_eq_true, beq_iff_eq, or_assoc]

/-- An instruction whose effect is a jump completes: the new `pc`, and nothing else. -/
theorem exec_next_of_effect_jump {i : Instr} {s : State} {a : Word} (h : effect i s = .jump a) :
    ∃ t, exec i s = .next t ∧ t.pc = a ∧ RegsSameExcept [] s t ∧ t.cond = s.cond ∧ t.status = s.status ∧
      MemSameExcept [] s t ∧ ConsoleSame s t :=
  ⟨s.setPc a, by rw [exec_eq_outcome, h, Effect.outcome], s.setPc_pc a, fun r _ => s.reg_setPc a r, s.setPc_cond a,
    s.setPc_status a, memSameExcept_of_mem_eq (s.setPc_mem a), rfl, rfl, rfl, rfl⟩

/-- An instruction whose effect is a call completes: the return address in register 7, the new `pc`, and nothing
else. -/
theorem exec_next_of_effect_call {i : Instr} {s : State} {a : Word} (h : effect i s = .call a) :
    ∃ t, exec i s = .next t ∧ t.reg 7 = s.pc ∧ t.pc = a ∧ RegsSameExcept [7] s t ∧ t.cond = s.cond ∧
      t.status = s.status ∧ MemSameExcept [] s t ∧ ConsoleSame s t := by
  refine ⟨s.link.setPc a, by rw [exec_eq_outcome, h, Effect.outcome], s.reg_setReg_self Reg.link s.pc, rfl,
    fun r hr => ?_, rfl, rfl, memSameExcept_of_mem_eq rfl, rfl, rfl, rfl, rfl⟩
  exact s.reg_setReg_ne Reg.link r s.pc (List.ne_of_not_mem_cons hr)

/-- An instruction with no effect completes in the state it was given. -/
theorem exec_next_of_effect_idle {i : Instr} {s : State} (h : effect i s = .idle) : exec i s = .next s := by
  rw [exec_eq_outcome, h, Effect.outcome]

/-- A register read after the link: the return address for register 7, the old value for the others (D10). -/
theorem State.reg_link (s : State) (r : Reg) : s.link.reg r = if r = 7 then s.pc else s.reg r :=
  s.reg_setReg Reg.link r s.pc

end Sys2Proof.Machine
end

section
open Sys2Proof Sys2Proof.Machine

/-- Settles O20: where the test holds the effect is a jump to the PC-relative address, elsewhere it is none; the
test holds for a mask of all ones. -/
theorem branchIsTakenExactlyWhenFlagsMeetMask : Obligations.BranchIsTakenExactlyWhenFlagsMeetMask := by
  intro n z p off s
  rw [← brTaken_iff]
  have heffect := effect_br n z p off s
  by_cases htaken : brTaken n z p s.cond = true
  · rw [if_pos htaken] at heffect
    obtain ⟨t, hexec, hpc, hframe⟩ := exec_next_of_effect_jump heffect
    have hsum : (t.pc.toNat : Int) = (s.pc.toNat + off.toInt) % 65536 := by
      rw [hpc, State.pcRel9, toNat_add_sext _ _ (by decide)]
    exact ⟨t, hexec, fun _ => hsum, fun hnot => absurd htaken hnot, fun _ _ _ => hsum, hframe⟩
  · rw [if_neg htaken] at heffect
    refine ⟨s, exec_next_of_effect_idle heffect, fun h => absurd h htaken, fun _ => rfl, ?_,
      regsSameExcept_of_regs_eq rfl, rfl, rfl, memSameExcept_of_mem_eq rfl, rfl, rfl, rfl, rfl⟩
    rintro rfl rfl rfl
    exact absurd (brTaken_all s.cond) htaken

/-- Settles O21: the effect of both is a jump to the register's value. -/
theorem jmpAndRetGoToTheRegister : Obligations.JmpAndRetGoToTheRegister := fun _ _ =>
  ⟨exec_next_of_effect_jump rfl, exec_next_of_effect_jump rfl⟩

/-- Settles O22: the effect is a call of the PC-relative address. -/
theorem jsrLinksThenJumps : Obligations.JsrLinksThenJumps := by
  intro off s
  obtain ⟨t, hexec, hlink, hpc, hframe⟩ := exec_next_of_effect_call (i := .jsr off) (s := s) rfl
  exact ⟨t, hexec, hlink, by rw [hpc, State.pcRel11, toNat_add_sext _ _ (by decide)], hframe⟩

/-- Settles O23: the effect is a call of the base register, read after the link. -/
theorem jsrrLinksThenReadsTheBase : Obligations.JsrrLinksThenReadsTheBase := by
  intro base s
  obtain ⟨t, hexec, hlink, hpc, hframe⟩ := exec_next_of_effect_call (i := .jsrr base) (s := s) rfl
  exact ⟨t, hexec, hlink, by rw [hpc, State.reg_link], hframe⟩

end

section
/-! SUPPORT. The load addresses (42_load.md R94): the signed sum modulo 65536 names one word. -/

namespace Sys2Proof.Machine

/-- A word whose number is the signed sum is the address that the alu computes (R33, D4). -/
theorem eq_add_sext_of_signed_sum {n : Nat} {a b : Word} {off : BitVec n} (hn : n ≤ 16)
    (ha : (a.toNat : Int) = (b.toNat + off.toInt) % 65536) : a = alu .add b (sext off) := by
  rw [← BitVec.toNat_inj, ← Int.ofNat_inj, toNat_add_sext b off hn, ha]

theorem State.eq_pcRel9 {s : State} {a : Word} {off : BitVec 9}
    (ha : (a.toNat : Int) = (s.pc.toNat + off.toInt) % 65536) : a = s.pcRel9 off :=
  eq_add_sext_of_signed_sum (by decide) ha

theorem State.eq_baseOffset {s : State} {a : Word} {base : Reg} {off : BitVec 6}
    (ha : (a.toNat : Int) = ((s.reg base).toNat + off.toInt) % 65536) : a = s.baseOffset base off :=
  eq_add_sext_of_signed_sum (by decide) ha

end Sys2Proof.Machine
end

section
open Sys2Proof Sys2Proof.Machine

/-- Settles O24: the effect is the write-back of the word at the PC-relative address. -/
theorem ldLoadsThePcRelativeWord : Obligations.LdLoadsThePcRelativeWord := by
  intro dr off s
  obtain ⟨t, hexec, hreg, hframe⟩ := exec_next_of_effect_writeBack (i := .ld dr off) (s := s) rfl
  exact ⟨t, hexec, fun a ha => by rw [hreg, State.eq_pcRel9 ha], hframe⟩

/-- Settles O25: the effect is the write-back of the word that the word at the PC-relative address points to. -/
theorem ldiLoadsThroughThePointer : Obligations.LdiLoadsThroughThePointer := by
  intro dr off s
  obtain ⟨t, hexec, hreg, hframe⟩ := exec_next_of_effect_writeBack (i := .ldi dr off) (s := s) rfl
  exact ⟨t, hexec, fun a ha => by rw [hreg, State.eq_pcRel9 ha], hframe⟩

/-- Settles O26: the effect is the write-back of the word at base plus offset, the base read in the state before. -/
theorem ldrLoadsFromBasePlusOffset : Obligations.LdrLoadsFromBasePlusOffset := by
  intro dr base off s
  obtain ⟨t, hexec, hreg, hframe⟩ := exec_next_of_effect_writeBack (i := .ldr dr base off) (s := s) rfl
  exact ⟨t, hexec, fun a ha => by rw [hreg, State.eq_baseOffset ha], hframe⟩

/-- Settles O27: the effect is the write-back of the PC-relative address itself. -/
theorem leaGivesTheAddress : Obligations.LeaGivesTheAddress := by
  intro dr off s
  obtain ⟨t, hexec, hreg, hframe⟩ := exec_next_of_effect_writeBack (i := .lea dr off) (s := s) rfl
  exact ⟨t, hexec, by rw [hreg, State.pcRel9, toNat_add_sext _ _ (by decide)], hframe⟩

end

section
/-! SUPPORT. The stores (43_store.md R103): a store completes and has its frame. -/

namespace Sys2Proof.Machine

/-- An instruction whose effect is a store completes: the word at its address, and nothing else. -/
theorem exec_next_of_effect_store {i : Instr} {s : State} {a v : Word} (h : effect i s = .store a v) :
    ∃ t, exec i s = .next t ∧ t.load a = v ∧ MemSameExcept [a] s t ∧ RegsSameExcept [] s t ∧ t.cond = s.cond ∧
      t.pc = s.pc ∧ t.status = s.status ∧ ConsoleSame s t :=
  ⟨s.store a v, by rw [exec_eq_outcome, h, Effect.outcome], store_spec s a v⟩

end Sys2Proof.Machine
end

section
open Sys2Proof Sys2Proof.Machine

/-- Settles O28: the effect is the store of the register at the PC-relative address. -/
theorem stStoresAtThePcRelativeAddress : Obligations.StStoresAtThePcRelativeAddress := by
  intro sr off s
  obtain ⟨t, hexec, hload, hmem, hframe⟩ := exec_next_of_effect_store (i := .st sr off) (s := s) rfl
  exact ⟨t, hexec, fun _ ha => ha ▸ ⟨hload, hmem⟩, hframe⟩

/-- Settles O29: the effect is the store of the register where the pointer points, the pointer read in the state
before. -/
theorem stiStoresThroughThePointer : Obligations.StiStoresThroughThePointer := by
  intro sr off s
  obtain ⟨t, hexec, hload, hmem, hframe⟩ := exec_next_of_effect_store (i := .sti sr off) (s := s) rfl
  exact ⟨t, hexec, fun _ ha => ha ▸ ⟨hload, hmem⟩, hframe⟩

/-- Settles O30: the effect is the store of the register at base plus offset. -/
theorem strStoresAtBasePlusOffset : Obligations.StrStoresAtBasePlusOffset := by
  intro sr base off s
  obtain ⟨t, hexec, hload, hmem, hframe⟩ := exec_next_of_effect_store (i := .str sr base off) (s := s) rfl
  exact ⟨t, hexec, fun _ ha => ha ▸ ⟨hload, hmem⟩, hframe⟩

end

section
/-! SUPPORT. An instruction without effect (44_trap_and_reserved.md R111, R112) keeps the core and the console. -/

namespace Sys2Proof.Machine

theorem coreSameExcept_refl (ds : List Reg) (s : State) : CoreSameExcept ds s s :=
  ⟨regsSameExcept_of_regs_eq rfl, rfl, rfl, rfl, memSameExcept_of_mem_eq rfl⟩

theorem consoleSame_refl (s : State) : ConsoleSame s s := ⟨rfl, rfl, rfl, rfl⟩

/-- An instruction with no effect completes and keeps the whole core and the console. -/
theorem exec_keeps_of_effect_idle {i : Instr} {s : State} (h : effect i s = .idle) :
    ∃ t, exec i s = .next t ∧ CoreSameExcept [] s t ∧ ConsoleSame s t :=
  ⟨s, exec_next_of_effect_idle h, coreSameExcept_refl [] s, consoleSame_refl s⟩

end Sys2Proof.Machine
end

section
open Sys2Proof Sys2Proof.Machine

/-- Settles O31: both words are lines of the format table, and both instructions have no effect. -/
theorem rtiAndResChangeNothing : Obligations.RtiAndResChangeNothing := by
  intro u12 s
  obtain ⟨-, -, -, -, -, -, -, -, -, -, -, hrti, -, -, -, -, hres, -⟩ :=
    formatWordsDecodeWhateverTheUnusedBits 0 0 0 false false false 0 0 0 0 0 0 0 0 0 u12
  refine ⟨congrArg Instr.named hrti, congrArg Instr.named hres, fun i hi => exec_keeps_of_effect_idle ?_⟩
  obtain rfl | rfl := List.mem_pair.1 hi
  · rfl
  · rfl

end

section
/-! SUPPORT. A console read at the end of the input (R134, D14), and what an output leaves of the core. -/

namespace Sys2Proof.Machine

theorem consoleIn_eq_none {s : State} (hin : s.input = []) (hend : s.inputEnded = true) : s.consoleIn = none := by
  rw [State.consoleIn, hin, hend]
  rfl

/-- Service 0x20 holds in the state it began in (R155). -/
theorem serviceGetc_of_consoleIn_none {s : State} (h : s.consoleIn = none) : serviceGetc s = .fault (.inputEnded s) := by
  rw [serviceGetc, h]

/-- Service 0x23 has written its prompt before it reads, and holds there (R136, R158). -/
theorem serviceIn_of_consoleIn_none {s : State} (h : s.consoleIn = none) :
    serviceIn s = .fault (.inputEnded (s.emit Config.inPrompt)) := by
  rw [serviceIn, consoleIn_emit, h]
  rfl

theorem coreSameExcept_emit (ds : List Reg) (s : State) (bs : List Byte) : CoreSameExcept ds s (s.emit bs) :=
  coreSameExcept_refl ds s

/-- An instruction whose effect is a trap means the service of its vector. -/
theorem exec_of_effect_trap {i : Instr} {s : State} {v : Byte} (h : effect i s = .trap v) : exec i s = service v s := by
  rw [exec_eq_outcome, h, Effect.outcome]

end Sys2Proof.Machine
end

section
open Sys2Proof Sys2Proof.Machine

/-- Settles O39: the read answers `none`, for GETC in the state it began in and for IN after the prompt. -/
theorem endedInputHoldsTheService : Obligations.EndedInputHoldsTheService := by
  intro s hin hend
  have hnone : s.consoleIn = none := consoleIn_eq_none hin hend
  constructor
  · intro i hi
    have htrap : effect i s = .trap Service.getc.vector := by
      obtain rfl | rfl := List.mem_pair.1 hi <;> rfl
    exact (exec_of_effect_trap htrap).trans (serviceGetc_of_consoleIn_none hnone)
  · intro i hi
    have htrap : effect i s = .trap Service.inp.vector := by
      obtain rfl | rfl := List.mem_pair.1 hi <;> rfl
    exact ⟨s.emit Config.inPrompt, (exec_of_effect_trap htrap).trans (serviceIn_of_consoleIn_none hnone), rfl,
      coreSameExcept_emit [] s _, hin, hend⟩

/-- Settles O41: the fetched word is the word at `pc`. -/
theorem stepRunsTheDecodedInstruction : Obligations.StepRunsTheDecodedInstruction := by
  intro s i hs _ hdec
  rw [step_of_running hs, State.fetchWord, hdec, State.advance, State.setPc]

end

section
/-! SUPPORT. The trap services by either spelling (60_exceptions.md R64, R153): what a read of the console gives, what
an output leaves, what a stop keeps, and the two ways a service does not complete. -/

namespace Sys2Proof.Machine

/-- By its own name or by its vector, an instruction of the service table means the service. -/
theorem exec_of_spelling {svc : Service} {i : Instr} (hi : i ∈ [svc.instr, .trap svc.vector]) (s : State) :
    exec i s = service svc.vector s := by
  obtain rfl | rfl := List.mem_pair.1 hi
  · cases svc <;> rfl
  · rfl

/-! ### Reads of the console -/

theorem consoleIn_of_cons {s : State} {c : Byte} {rest : List Byte} (h : s.input = c :: rest) :
    s.consoleIn = some (c, { s with input := rest }) := by
  rw [State.consoleIn, h]

theorem consoleIn_of_open {s : State} (hin : s.input = []) (hopen : s.inputEnded = false) :
    s.consoleIn = some (Config.hostByte s.inputDraws, { s with inputDraws := s.inputDraws + 1 }) := by
  rw [State.consoleIn, hin, hopen]
  rfl

/-- A read finds no byte only where none waits and none will come (R134). -/
theorem ended_of_consoleIn_none {s : State} (h : s.consoleIn = none) : s.input = [] ∧ s.inputEnded = true := by
  rcases consoleIn_cases s with ⟨_, _, -, e⟩ | ⟨-, -, e⟩ | ⟨hin, hend, -⟩
  · rw [e] at h; cases h
  · rw [e] at h; cases h
  · exact ⟨hin, hend⟩

theorem toNat_zext8 (c : Byte) : (zext8 c).toNat = c.toNat := BitVec.toNat_setWidth_of_le (by decide)

/-- A byte read into `x[0]` leaves the rest of the core as it was. -/
theorem coreSameExcept_setReg_of_consoleIn {s u : State} {c : Byte} (h : s.consoleIn = some (c, u)) (v : Word) :
    CoreSameExcept [0] s (u.setReg 0 v) := by
  rw [consoleIn_frame h]
  exact ⟨fun r hr => State.reg_setReg_ne _ _ _ _ (List.ne_of_not_mem_cons hr), rfl, rfl, rfl, fun _ _ => rfl⟩

/-- Service 0x20 with the byte that the read gave (R155). -/
theorem serviceGetc_of_consoleIn {s u : State} {c : Byte} (h : s.consoleIn = some (c, u)) :
    ∃ t, serviceGetc s = .next t ∧ (t.reg 0).toNat = c.toNat ∧ CoreSameExcept [0] s t ∧ t.output = s.output ∧
      t.input = u.input ∧ t.inputEnded = s.inputEnded := by
  obtain ⟨-, -, hout, hend, -⟩ := consoleIn_streams h
  refine ⟨u.setReg 0 (zext8 c), by rw [serviceGetc, h], ?_, coreSameExcept_setReg_of_consoleIn h _, hout, rfl, hend⟩
  rw [State.reg_setReg_self, toNat_zext8]

/-- Service 0x23 with the byte that the read gave: the prompt before it and its echo after it (R158). -/
theorem serviceIn_of_consoleIn {s u : State} {c : Byte} (h : s.consoleIn = some (c, u)) :
    ∃ t, serviceIn s = .next t ∧ (t.reg 0).toNat = c.toNat ∧ CoreSameExcept [0] s t ∧
      t.output = s.output ++ Config.inPrompt ++ [c] ∧ t.input = u.input ∧ t.inputEnded = s.inputEnded := by
  obtain ⟨-, -, hout, hend, -⟩ := consoleIn_streams h
  refine ⟨((u.emit Config.inPrompt).setReg 0 (zext8 c)).emit [c], ?_, ?_, coreSameExcept_setReg_of_consoleIn h _, ?_,
    rfl, hend⟩
  · rw [serviceIn, consoleIn_emit, h]
    rfl
  · rw [State.reg_emit, State.reg_setReg_self, toNat_zext8]
  · rw [State.emit_output, State.setReg_output, State.emit_output, hout]

/-! ### Output -/

theorem toNat_lowByte (w : Word) : (lowByte w).toNat = w.toNat % 256 := by simp [lowByte]

/-- An instruction that appends bytes to the output changes nothing else. -/
theorem exec_frame_of_emit {i : Instr} {s : State} {bs : List Byte} (h : exec i s = .next (s.emit bs)) :
    ∃ t, exec i s = .next t ∧ t.output = s.output ++ bs ∧ CoreSameExcept [] s t ∧ t.input = s.input ∧
      t.inputEnded = s.inputEnded ∧ t.inputDraws = s.inputDraws :=
  ⟨s.emit bs, h, rfl, coreSameExcept_emit [] s bs, rfl, rfl, rfl⟩

theorem servicePuts_of_putsBytes {s : State} {bs : List Byte}
    (h : putsBytes s.mem Config.memoryWords (s.reg 0) = some bs) : servicePuts s = .next (s.emit bs) := by
  rw [servicePuts, h]

theorem servicePutsp_of_putspBytes {s : State} {bs : List Byte}
    (h : putspBytes s.mem Config.memoryWords (s.reg 0) = some bs) : servicePutsp s = .next (s.emit bs) := by
  rw [servicePutsp, h]

/-- What holds of the 65536 words from an address on holds of every word, since the address wraps (D18). -/
theorem forall_offset_iff {P : Word → Prop} (a : Word) :
    (∀ k < Config.memoryWords, P (a + BitVec.ofNat 16 k)) ↔ ∀ b, P b := by
  refine ⟨fun h b => ?_, fun h k _ => h _⟩
  obtain ⟨k, hk, rfl⟩ := exists_offset a b
  exact h k hk

/-- PUTS never ends exactly where no word of memory is zero (R157). -/
theorem servicePuts_endless_iff {s : State} :
    servicePuts s = .fault .endlessString ↔ ∀ a, s.mem.read a ≠ 0x0000#16 := by
  rw [← forall_offset_iff (s.reg 0), ← putsBytes_eq_none, servicePuts]
  cases putsBytes s.mem Config.memoryWords (s.reg 0) <;> simp

/-- PUTSP never ends exactly where no word of memory has a zero byte (R159). -/
theorem servicePutsp_endless_iff {s : State} :
    servicePutsp s = .fault .endlessString ↔
      ∀ a, lowByte (s.mem.read a) ≠ 0x00#8 ∧ highByte (s.mem.read a) ≠ 0x00#8 := by
  rw [← forall_offset_iff (s.reg 0), ← putspBytes_eq_none, servicePutsp]
  cases putspBytes s.mem Config.memoryWords (s.reg 0) <;> simp

/-! ### Stops -/

theorem service_of_ofVector_none {v : Byte} (h : Service.ofVector v = none) (s : State) :
    service v s = .next { s with status := .failed v } := by
  rw [service, h]
  rfl

/-- An instruction that writes the run status alone keeps all else, and leaves the machine as the new status says. -/
theorem exec_frame_of_status {i : Instr} {s : State} {st : Status} {f : Fault}
    (h : exec i s = .next { s with status := st }) (hstep : ∀ t : State, t.status = st → step t = .fault f) :
    ∃ t, exec i s = .next t ∧ t.status = st ∧ RegsSameExcept [] s t ∧ t.cond = s.cond ∧ t.pc = s.pc ∧
      MemSameExcept [] s t ∧ ConsoleSame s t ∧ step t = .fault f :=
  ⟨{ s with status := st }, h, rfl, regsSameExcept_of_regs_eq rfl, rfl, rfl, memSameExcept_of_mem_eq rfl,
    consoleSame_refl s, hstep _ rfl⟩

/-! ### Services that do not complete -/

/-- A service that does not complete is a read of ended input, by vector 0x20 or 0x23, or a string without end, by
vector 0x22 or 0x24 (R134, U9). -/
theorem service_fault_cases {v : Byte} {s : State} {f : Fault} (h : service v s = .fault f) :
    ((∃ held, f = .inputEnded held) ∧ s.consoleIn = none ∧ (v = Service.getc.vector ∨ v = Service.inp.vector)) ∨
      (f = .endlessString ∧ (v = Service.puts.vector ∨ v = Service.putsp.vector)) := by
  cases hv : Service.ofVector v with
  | none => rw [service_of_ofVector_none hv] at h; cases h
  | some svc =>
    obtain rfl := ofVector_eq_some.1 hv
    rw [service_vector] at h
    cases svc with
    | getc =>
      cases hc : s.consoleIn with
      | none =>
        rw [serviceGetc_of_consoleIn_none hc] at h
        cases h
        exact .inl ⟨⟨_, rfl⟩, rfl, .inl rfl⟩
      | some p =>
        obtain ⟨t, e, -⟩ := serviceGetc_of_consoleIn hc
        rw [e] at h
        cases h
    | inp =>
      cases hc : s.consoleIn with
      | none =>
        rw [serviceIn_of_consoleIn_none hc] at h
        cases h
        exact .inl ⟨⟨_, rfl⟩, rfl, .inr rfl⟩
      | some p =>
        obtain ⟨t, e, -⟩ := serviceIn_of_consoleIn hc
        rw [e] at h
        cases h
    | puts =>
      simp only [servicePuts] at h
      split at h
      · cases h
      · cases h
        exact .inr ⟨rfl, .inl rfl⟩
    | putsp =>
      simp only [servicePutsp] at h
      split at h
      · cases h
      · cases h
        exact .inr ⟨rfl, .inr rfl⟩
    | out | halt => cases h

/-- An instruction that does not complete is a trap in its service. -/
theorem service_fault_of_exec_fault {i : Instr} {s : State} {f : Fault} (h : exec i s = .fault f) :
    ∃ v, i.core = .trap v ∧ service v s = .fault f := by
  rw [exec_eq_outcome] at h
  cases he : effect i s with
  | trap v =>
    rw [he] at h
    exact ⟨v, core_of_effect_eq_trap he, h⟩
  | writeBack | store | jump | call | idle => rw [he] at h; cases h

/-- No instruction is refused (R150). -/
theorem exec_ne_refused (i : Instr) (s : State) (r : Refusal) : exec i s ≠ .refused r := by
  rw [exec_eq_outcome]
  intro h
  cases he : effect i s with
  | trap v =>
    rw [he, Effect.outcome] at h
    rcases service_cases v s with ⟨_, e, -⟩ | ⟨_, e, -⟩ | e <;> cases e.symm.trans h
  | writeBack | store | jump | call | idle => rw [he] at h; cases h

end Sys2Proof.Machine
end

section
open Sys2Proof Sys2Proof.Machine

/-- Settles O32: the read gives the byte that waits, or the host's on an open stream. -/
theorem getcReadsOneByteIntoR0 : Obligations.GetcReadsOneByteIntoR0 := by
  intro i hi s
  rw [exec_of_spelling (svc := .getc) hi s]
  refine ⟨fun c rest hin => serviceGetc_of_consoleIn (consoleIn_of_cons hin), fun hin hopen => ?_⟩
  obtain ⟨t, ht, hreg, hcore, hout, hrest, hend⟩ := serviceGetc_of_consoleIn (consoleIn_of_open hin hopen)
  exact ⟨t, ht, hreg ▸ BitVec.isLt _, hcore, hout, hrest.trans hin, hend.trans hopen⟩

/-- Settles O33: the service emits the low byte of `x[0]`. -/
theorem outWritesTheLowByteOfR0 : Obligations.OutWritesTheLowByteOfR0 := by
  intro i hi s
  obtain ⟨t, hexec, hout, hframe⟩ := exec_frame_of_emit (exec_of_spelling (svc := .out) hi s)
  exact ⟨t, lowByte (s.reg 0), hexec, hout, toNat_lowByte _, hframe⟩

/-- Settles O34: the bytes of a string that a zero word ends are found within the words of memory. -/
theorem putsWritesTheStringAtR0 : Obligations.PutsWritesTheStringAtR0 := by
  intro i hi s n hn hw h0
  have hbytes := putsBytes_of_terminator s.mem n Config.memoryWords (s.reg 0) hn hw h0
  exact exec_frame_of_emit ((exec_of_spelling (svc := .puts) hi s).trans (servicePuts_of_putsBytes hbytes))

/-- Settles O35: GETC's read, between the prompt and the echo. -/
theorem inPromptsReadsAndEchoes : Obligations.InPromptsReadsAndEchoes := by
  intro i hi s
  rw [exec_of_spelling (svc := .inp) hi s]
  refine ⟨fun c rest hin => serviceIn_of_consoleIn (consoleIn_of_cons hin), fun hin hopen => ?_⟩
  obtain ⟨t, ht, hreg, hcore, hout, hrest, hend⟩ := serviceIn_of_consoleIn (consoleIn_of_open hin hopen)
  exact ⟨t, _, ht, hreg, hcore, hout, hrest.trans hin, hend.trans hopen⟩

/-- Settles O36: the bytes of a packed string that a zero byte ends are found within the words of memory. -/
theorem putspWritesThePackedStringAtR0 : Obligations.PutspWritesThePackedStringAtR0 := by
  intro i hi s n hn hw h0
  have hbytes := putspBytes_of_terminator s.mem n Config.memoryWords (s.reg 0) hn hw h0
  obtain ⟨t, hexec, hout, hframe⟩ :=
    exec_frame_of_emit ((exec_of_spelling (svc := .putsp) hi s).trans (servicePutsp_of_putspBytes hbytes))
  rw [← List.append_assoc] at hout
  exact ⟨t, hexec, hout, hframe⟩

/-- Settles O37: the service writes HALTED, and a halted machine takes no step. -/
theorem haltStopsForGood : Obligations.HaltStopsForGood := by
  intro i hi s
  refine exec_frame_of_status (exec_of_spelling (svc := .halt) hi s) fun t ht => ?_
  obtain ⟨hhalted, -, -⟩ := stoppedMachineTakesNoStep t
  exact hhalted ht

/-- Settles O38: the vector selects no service and FAILED of it is written, and a failed machine takes no step. -/
theorem unknownVectorFailsForGood : Obligations.UnknownVectorFailsForGood := by
  intro v s hv
  have hexec : exec (.trap v) s = service v s := exec_of_effect_trap rfl
  have hnone : Service.ofVector v = none := ofVector_eq_none_iff.2 hv
  refine exec_frame_of_status (hexec.trans (service_of_ofVector_none hnone s)) fun t ht => ?_
  obtain ⟨-, hfailed, -⟩ := stoppedMachineTakesNoStep t
  exact hfailed v ht

/-- Settles O40: the words that a string service looks at are all the words of memory. -/
theorem stringsNeverEndExactlyWithoutTerminator : Obligations.StringsNeverEndExactlyWithoutTerminator :=
  fun _ => ⟨servicePuts_endless_iff, servicePutsp_endless_iff⟩

/-- Settles O44: no outcome is a refusal, and a fault is a console service's. -/
theorem onlyConsoleServicesCanHang : Obligations.OnlyConsoleServicesCanHang := by
  refine fun i s => ⟨exec_ne_refused i s, fun f h => ?_⟩
  obtain ⟨v, hcore, hs⟩ := service_fault_of_exec_fault h
  rcases service_fault_cases hs with ⟨⟨held, hf⟩, hnone, hv⟩ | ⟨hf, hv⟩
  · obtain ⟨hin, hend⟩ := ended_of_consoleIn_none hnone
    refine .inl ⟨held, hf, hin, hend, ?_⟩
    rcases hv with rfl | rfl
    · exact .inl hcore
    · exact .inr hcore
  · rcases hv with rfl | rfl
    · exact .inr ⟨hf, .inl hcore⟩
    · exact .inr ⟨hf, .inr hcore⟩

end

section
/-! SUPPORT. Zero words (70_reset_and_hazards.md R191): BR with an empty mask, a step that only advances `pc`. -/

namespace Sys2Proof.Machine

/-- The zero word is BR with no mask bit, which is never taken (R80, D8). -/
theorem effect_decode_zero (s : State) : effect (decode 0x0000#16) s = .idle := by
  have hdecode : decode 0x0000#16 = .br false false false 0#9 := by decide
  rw [hdecode, effect_br, brTaken_none, if_neg Bool.false_ne_true]

theorem step_of_zero_word {s : State} (hs : s.status = .running) (hw : s.load s.pc = 0x0000#16) :
    step s = .next s.advance := by
  rw [step_of_running hs, State.fetchWord, hw, exec_next_of_effect_idle (effect_decode_zero _)]

theorem stepTimes_succ_of_next {s t : State} (h : step s = .next t) (k : Nat) :
    stepTimes (k + 1) s = stepTimes k t := by
  rw [stepTimes, h]

end Sys2Proof.Machine
end

section
/-! SUPPORT. The loader (70_reset_and_hazards.md R194, R196): what every word reads after consecutive words are
written, and the object file as the words it holds. -/

namespace Sys2Proof.Machine

/-- A step past an address does not come back to it within the rest of memory. -/
theorem word_ne_succ_add (a : Word) {k : Nat} (hk : k + 1 < Config.memoryWords) :
    a ≠ a + 1#16 + BitVec.ofNat 16 k := by
  have hsmall : k + 1 < 65536 := hk
  have ha : a.toNat < 65536 := a.isLt
  rw [word_succ_add, ne_eq, ← BitVec.toNat_inj, BitVec.toNat_add, BitVec.toNat_ofNat]
  omega

/-- A word at none of the addresses written is as before. -/
theorem read_writeWords_of_ne {m : Memory} {a b : Word} {ws : List Word}
    (h : ∀ k < ws.length, b ≠ a + BitVec.ofNat 16 k) : (m.writeWords a ws).read b = m.read b := by
  induction ws generalizing m a with
  | nil => rfl
  | cons w ws ih =>
    have hhead : b ≠ a := by simpa using h 0 (Nat.succ_pos _)
    have htail : ∀ k < ws.length, b ≠ a + 1#16 + BitVec.ofNat 16 k := fun k hk =>
      word_succ_add a k ▸ h (k + 1) (Nat.succ_lt_succ hk)
    rw [Memory.writeWords, ih htail, read_write_ne m w hhead]

/-- Each word written is read at its own address, when there are no more of them than memory has words. -/
theorem read_writeWords_add {m : Memory} {a : Word} {ws : List Word} (hlen : ws.length ≤ Config.memoryWords)
    {k : Nat} (hk : k < ws.length) : (m.writeWords a ws).read (a + BitVec.ofNat 16 k) = ws[k] := by
  induction ws generalizing m a k with
  | nil => exact absurd hk (Nat.not_lt_zero k)
  | cons w ws ih =>
    rw [List.length_cons] at hlen
    cases k with
    | zero =>
      have hrest : ∀ j < ws.length, a ≠ a + 1#16 + BitVec.ofNat 16 j := fun j hj => word_ne_succ_add a (by omega)
      rw [BitVec.add_zero, Memory.writeWords, read_writeWords_of_ne hrest, read_write_self,
        List.getElem_cons_zero]
    | succ j =>
      rw [← word_succ_add, Memory.writeWords, ih (by omega) (Nat.lt_of_succ_lt_succ hk), List.getElem_cons_succ]

/-- An address outside an image that ends by 0xFFFF is at none of its words. -/
theorem ne_image_address {origin a : Word} {n : Nat} (hfit : origin.toNat + n ≤ 65536)
    (ha : a.toNat < origin.toNat ∨ origin.toNat + n ≤ a.toNat) {k : Nat} (hk : k < n) :
    a ≠ origin + BitVec.ofNat 16 k := by
  rintro rfl
  rw [BitVec.toNat_add, BitVec.toNat_ofNat] at ha
  omega

theorem loadImage_of_fits {origin : Word} {ws : List Word} (s : State)
    (hfit : origin.toNat + ws.length ≤ Config.memoryWords) :
    s.loadImage origin ws = some { s with mem := s.mem.writeWords origin ws } :=
  if_pos hfit

/-- The words of a file that holds the bytes of words, high byte first, are those words (R196). -/
theorem objectWords_flatMap_wordToBytes (ws : List Word) : objectWords (ws.flatMap wordToBytes) = some ws := by
  induction ws with
  | nil => rfl
  | cons w ws ih =>
    rw [List.flatMap_cons, wordToBytes, List.cons_append, List.cons_append, List.nil_append, objectWords, ih,
      wordOfBytes_split, Option.map_some]

/-- A file of odd length is not a sequence of words (R196). -/
theorem objectWords_of_odd {file : List Byte} (h : file.length % 2 = 1) : objectWords file = none := by
  induction file using objectWords.induct with
  | case1 => cases h
  | case2 => rfl
  | case3 hi lo rest ih =>
    rw [List.length_cons, List.length_cons] at h
    have hrest : rest.length % 2 = 1 := by omega
    rw [objectWords, ih hrest, Option.map_none]

theorem loadObject_of_words {s : State} {file : List Byte} {origin : Word} {ws : List Word}
    (h : objectWords file = some (origin :: ws)) : s.loadObject file = s.loadImage origin ws := by
  rw [State.loadObject, h]

theorem loadObject_of_no_words {s : State} {file : List Byte} (h : objectWords file = none) :
    s.loadObject file = none := by
  rw [State.loadObject, h]

end Sys2Proof.Machine
end

section
open Sys2Proof Sys2Proof.Machine

/-- Settles O46, by induction on the number of steps: the first word is zero, so the first step only advances `pc`,
and the words after it are those of the induction hypothesis. -/
theorem zeroWordsOnlyAdvanceThePc : Obligations.ZeroWordsOnlyAdvanceThePc := by
  intro k
  induction k with
  | zero =>
    intro s _ _
    rw [stepTimes, BitVec.add_zero]
  | succ k ih =>
    intro s hs hzero
    have hfirst : s.load s.pc = 0x0000#16 := by simpa using hzero 0 (Nat.succ_pos k)
    have hrest : ∀ j < k, s.advance.load (s.advance.pc + BitVec.ofNat 16 j) = 0x0000#16 := fun j hj => by
      rw [State.load_advance, State.advance_pc, word_succ_add]
      exact hzero (j + 1) (Nat.succ_lt_succ hj)
    rw [stepTimes_succ_of_next (step_of_zero_word hs hfirst), ih s.advance hs hrest, State.advance_pc, word_succ_add,
      State.advance, State.setPc]

/-- Settles O55: the loader writes the words of an image one after another, and an image that ends by 0xFFFF does not
come back to its origin; the words of an object file are the pairs of its bytes. -/
theorem loadedImageStandsFromItsOrigin : Obligations.LoadedImageStandsFromItsOrigin := by
  refine ⟨fun s origin ws hfit => ?_, fun s origin ws => ?_, fun s file hodd => ?_⟩
  · refine ⟨_, loadImage_of_fits s hfit, rfl, fun k hk => ?_, fun a ha => ?_⟩
    · exact read_writeWords_add (Nat.le_of_add_left_le hfit) hk
    · exact read_writeWords_of_ne fun k hk => ne_image_address hfit ha hk
  · exact loadObject_of_words (objectWords_flatMap_wordToBytes (origin :: ws))
  · exact loadObject_of_no_words (objectWords_of_odd hodd)

end
